-- ==== Sys2Proof/Word.lean ====
section
/-! DEFINITION. The widths of the block's data words (00_scope.md R5) and the bit vectors of its ports
(10_state.md R30) and request fields (30_encoding.md R70). -/

namespace Sys2Proof

/-- The width of a data word: 8, 16, 32 or 64 bits; no other width exists (00_scope.md R5). -/
inductive Width where
  | w8
  | w16
  | w32
  | w64
  deriving DecidableEq, Repr

/-- The number of bits a width stands for (00_scope.md R5). -/
def Width.bits : Width → Nat
  | .w8 => 8
  | .w16 => 16
  | .w32 => 32
  | .w64 => 64

/-- log₂ of a width: 3, 4, 5, 6, which is `fls(H − 1)` (30_encoding.md R68; 60_exceptions.md R218). -/
def Width.log2Bits : Width → Nat
  | .w8 => 3
  | .w16 => 4
  | .w32 => 5
  | .w64 => 6

/-- The request word `cmd` (00_scope.md R6 `CMD_BITS`; 30_encoding.md R70). -/
abbrev CmdWord := BitVec 32

/-- The operand bus `a` and the result bus `r` (00_scope.md R6 `XLEN_BUS`). -/
abbrev Bus := BitVec 64

/-- A parameter field `p` or `q` of the request word, unsigned 0 to 63 (30_encoding.md R70, R76). -/
abbrev Param := BitVec 6

end Sys2Proof
end

