-- ==== Sys2Proof/Config.lean ====
section
/-! DEFINITION. The block's configuration (00_scope.md R6), its default (10_state.md R27) and the free
values. -/

namespace Sys2Proof

/-- How SLOGDEC and SLOGDECC split a negative codeword: the parameter `SLOGDEC_NEG` (00_scope.md R6;
44_slog_codec.md R163; 90_conflicts.md C3). -/
inductive SlogdecNeg where
  /-- D0's steps 2, 3 and 5: sign and magnitude. The default. -/
  | asWritten
  /-- The reading that inverts the encoder: floor exponent, non-negative mantissa. -/
  | floor
  deriving DecidableEq, Repr

/-- The parameter `F_MAX(H)`: for each width H the largest legal fractional count (00_scope.md R6;
92_eei_decisions.md D7 and its table of named parameters). Log entry 12. -/
structure FMax where
  /-- `F_MAX(8)`. -/
  w8 : Nat
  /-- `F_MAX(16)`. -/
  w16 : Nat
  /-- `F_MAX(32)`. -/
  w32 : Nat
  /-- `F_MAX(64)`. -/
  w64 : Nat
  deriving DecidableEq, Repr

/-- The configuration fields a model takes as arguments (00_scope.md R6; 92_eei_decisions.md, named
parameters). Table entries are natural numbers: an entry `t` stands for `t / 2^lutQ` (R6 `LUT_Q`). Log
entry 6. -/
structure Config where
  /-- `ENC_LUT[0..255]`, read by SLOGENCC (10_state.md R25). -/
  encLut : Vector Nat 256
  /-- `DEC_LUT[0..255]`, read by SLOGDECC (10_state.md R25). -/
  decLut : Vector Nat 256
  /-- `LUT_Q`, the fraction bits of an entry (00_scope.md R6). -/
  lutQ : Nat
  /-- `SLOGDEC_NEG` (00_scope.md R6). -/
  slogdecNeg : SlogdecNeg
  /-- `F_MAX` (00_scope.md R6; 92_eei_decisions.md D7). -/
  fMax : FMax
  deriving DecidableEq, Repr

/-- The default table with numerator `c`: entry i is c · i · (256 − i) (10_state.md R27). -/
def Config.quadraticLut (c : Nat) : Vector Nat 256 :=
  ⟨((List.range 256).map fun i => c * i * (256 - i)).toArray, by simp⟩

/-- The default of `F_MAX`: H − 1 for every width H (00_scope.md R6; 92_eei_decisions.md D7). -/
def FMax.default : FMax := ⟨7, 15, 31, 63⟩

/-- The default configuration (00_scope.md R6; 10_state.md R27). -/
def Config.default : Config where
  encLut := Config.quadraticLut 89
  decLut := Config.quadraticLut 88
  lutQ := 24
  slogdecNeg := .asWritten
  fMax := FMax.default

/-- The n-th free draw of the result bus for an illegal request: it has no value that anything could
evaluate or prove (60_exceptions.md R212; 93_implementation_defined.md U1). Log entry 4. -/
opaque Config.freeResult : Nat → Bus

end Sys2Proof
end

