-- ==== Sys2Proof/Syntax.lean ====
section
/-! DEFINITION. The 24 operations as terms (30_encoding.md R80), with the fields each one uses, and the
named causes of an illegal request (60_exceptions.md R212). -/

namespace Sys2Proof

/-- One constructor per row of the operation map (30_encoding.md R80). A field the operation does not
use is no argument: it is zero in every word that decodes (R73). Parameters outside an operation's
'Legal when' set can be written; such a term is ill-formed (60_exceptions.md R218) and its meaning
answers with cause 3. -/
inductive Instr where
  /-- CLZ, R100. -/
  | clz (w : Width)
  /-- FLS, R101. -/
  | fls (w : Width)
  /-- LOG2F, R102. -/
  | log2f (w : Width)
  /-- BMASK with `p` = h, R103. -/
  | bmask (w : Width) (hi : Param)
  /-- UMIN, R104. -/
  | umin (w : Width)
  /-- UMAX, R105. -/
  | umax (w : Width)
  /-- SMIN, R106. -/
  | smin (w : Width)
  /-- SMAX, R107. -/
  | smax (w : Width)
  /-- PULMAXM with `wh` = H, `wl` = L, R108. -/
  | pulmaxm (h l : Width)
  /-- SLOGMAXM with `wh` = H, `wl` = L, R109. -/
  | slogmaxm (h l : Width)
  /-- TOFPU with `q` = F, R121. -/
  | tofpu (h l : Width) (f : Param)
  /-- TOFPS with `q` = F, R122. -/
  | tofps (h l : Width) (f : Param)
  /-- FROMFPU with `q` = F, R123. -/
  | fromfpu (h l : Width) (f : Param)
  /-- FROMFPS with `q` = F, R124. -/
  | fromfps (h l : Width) (f : Param)
  /-- PULENC with `p` = M, R141. -/
  | pulenc (h l : Width) (m : Param)
  /-- PULDEC with `p` = M, R143. -/
  | puldec (h l : Width) (m : Param)
  /-- SLOGENC with `p` = M, `q` = F, R161. -/
  | slogenc (h l : Width) (m f : Param)
  /-- SLOGDEC with `p` = M, `q` = F', R163. -/
  | slogdec (h l : Width) (m f : Param)
  /-- SLOGENCC with `p` = M, `q` = F, R166. -/
  | slogencc (h l : Width) (m f : Param)
  /-- SLOGDECC with `p` = M, `q` = F', R167. -/
  | slogdecc (h l : Width) (m f : Param)
  /-- PUL2PUL with `wh` = L_in, `wl` = L_out, `p` = M_in, `q` = M_out, R191. -/
  | pul2pul (li lo : Width) (mi mo : Param)
  /-- SLOG2SLOG, fields as PUL2PUL, R192. -/
  | slog2slog (li lo : Width) (mi mo : Param)
  /-- PUL2SLOG, fields as PUL2PUL, R193. -/
  | pul2slog (li lo : Width) (mi mo : Param)
  /-- SLOG2PUL, fields as PUL2PUL, R194. -/
  | slog2pul (li lo : Width) (mi mo : Param)
  deriving DecidableEq, Repr

/-- The causes of an illegal request by name (60_exceptions.md R212, column 'Name'). -/
inductive Cause where
  /-- Cause 1: `cmd[4:0]` ≥ 24 (R81). -/
  | reservedOperation
  /-- Cause 2: a reserved bit or an unused field is non-zero (R72, R73). -/
  | reservedField
  /-- Cause 3: the operation's 'Legal when' condition on its parameters fails (R218). -/
  | parameterRange
  /-- Cause 4: the operand is 0 where the operation needs it non-zero (CLZ and LOG2F). -/
  | operandRange
  deriving DecidableEq, Repr

end Sys2Proof
end

