-- ==== Sys2Proof/Machine/State.lean ====
section
/-! DEFINITION. State as plain data: the ports of 10_state.md R30, the configuration of 00_scope.md R6
with the two correction tables of 10_state.md R25, and the model's own count of free draws. The block
has no other state (10_state.md R20 to R24). -/

namespace Sys2Proof.Machine

/-- What the host presents at the request port (00_scope.md R14; 10_state.md R30). -/
structure Request where
  /-- The request word (30_encoding.md R70). -/
  cmd : CmdWord
  /-- The operand bus (30_encoding.md R74). -/
  a : Bus
  deriving DecidableEq, Repr

/-- What the block answers at the response port (00_scope.md R14; 10_state.md R30). -/
structure Response where
  /-- The result bus (30_encoding.md R75). -/
  r : Bus
  /-- Whether the request was illegal (60_exceptions.md R211). -/
  ill : Bool
  /-- Which kind of illegal request; 0 when `ill` is false (60_exceptions.md R212). -/
  cause : BitVec 3
  deriving DecidableEq, Repr

/-- The machine. `cmd` and `a` are what the host holds on the request port, `rsp` the response of the
latest request, absent before the first one (10_state.md R36; it is not latched, R22: the next step
overwrites it), `cfg` the configuration with the tables, which no step changes (R25, R35), `draws` the
model's own counter of free draws (log entry 4). -/
structure State where
  /-- Request port `cmd` (R30). Log entries 1 and 2. -/
  cmd : CmdWord
  /-- Operand port `a` (R30). Log entries 1 and 2. -/
  a : Bus
  /-- Response port; there is no initial response (R36). Log entry 3. -/
  rsp : Option Response
  /-- The configuration and the tables (00_scope.md R6; R25). -/
  cfg : Config
  /-- How many free draws of `r` illegal requests have taken (60_exceptions.md R212). Log entry 4. -/
  draws : Nat
  deriving DecidableEq, Repr

/-- Why the machine could stop with a fault. There is no constructor: the spec gives no condition that
stops the block; it "never hangs" (60_exceptions.md R211) and its one exception is a response (log
entry 5). -/
inductive Fault where
  deriving DecidableEq, Repr

/-- Why an instruction could have no meaning. -/
inductive Refusal where
  /-- An instruction whose meaning is not written yet: only an arm of `exec` may raise it, and none
  does. Safe: nothing is claimed of a refused instruction. -/
  | notModelled (mnemonic : String)
  deriving DecidableEq, Repr

/-- What a step or a meaning answers. -/
abbrev Result := Host.Outcome State Fault Refusal

/-- The machine right after reset: no response (10_state.md R36), the tables and parameters at their
defaults (R35; 00_scope.md R6), and nothing driven on the request port (DESIGN CHOICE 0, log entry 2). -/
def State.reset : State where
  cmd := 0
  a := 0
  rsp := none
  cfg := Config.default
  draws := 0

end Sys2Proof.Machine
end

