-- ==== Sys2Proof/Machine/Operands.lean ====
section
/-! DEFINITION. The integer primitives of the pseudocode (00_scope.md R7, R8), the forms in which an
operation reads its operand (30_encoding.md R74), the width code (R71), and the fields' values (R76). -/

namespace Sys2Proof.Machine

/-- `trunc_N(v)` = v mod 2^N on ℤ, in [0, 2^N) (00_scope.md R8). -/
def trunc (n : Nat) (v : Int) : Nat := (v % 2 ^ n).toNat

/-- `sint_N(b)`: the two's-complement reading of an N-bit pattern (00_scope.md R8). -/
def sint (n b : Nat) : Int := if b < 2 ^ (n - 1) then (b : Int) else (b : Int) - 2 ^ n

/-- `shl(v, n)` = v · 2^n on ℤ; nothing is lost (00_scope.md R8). -/
def shl (v : Int) (n : Nat) : Int := v * 2 ^ n

/-- `shr(v, n)` = ⌊v / 2^n⌋ on ℤ, toward −∞ (00_scope.md R8): the divisor is positive, so Lean's
Euclidean division is the floor. -/
def shr (v : Int) (n : Nat) : Int := v / 2 ^ n

/-- `nlz_W(b)` = W − 1 − ⌊log2 b⌋ for b > 0; the meanings never ask for it at 0 (00_scope.md R8;
41_bit_primitives.md R110). -/
def nlz (w b : Nat) : Nat := w - 1 - Nat.log2 b

/-- The operand read as an unsigned pattern of width `w`: `a[W−1:0]`; bits `a[63:W]` are ignored
(30_encoding.md R74). -/
def State.operand (s : State) (w : Width) : Nat := s.a.toNat % 2 ^ w.bits

/-- The operand read as a signed integer of width `w`: `sint_W(a[W−1:0])` (30_encoding.md R74). -/
def State.operandS (s : State) (w : Width) : Int := sint w.bits (s.operand w)

/-- The realignment of a transcoder, d = M_out − M_in: left by d, or right by −d with floor
(45_transcoders.md, text before R190). -/
def realign (x d : Int) : Int := if 0 ≤ d then shl x d.toNat else shr x (-d).toNat

/-- The largest legal fractional count, `F_MAX(H)`: the configured one, by default H − 1 (00_scope.md R6;
92_eei_decisions.md D7). Log entry 12. -/
def fMax (c : Config) (h : Width) : Nat :=
  match h with
  | .w8 => c.fMax.w8
  | .w16 => c.fMax.w16
  | .w32 => c.fMax.w32
  | .w64 => c.fMax.w64

end Sys2Proof.Machine
end

