-- ==== Sys2Proof/Machine/Legal.lean ====
section
/-! DEFINITION. The 'Legal when' conditions on the parameters (60_exceptions.md R218), one per row of
that table. A request outside them is illegal with cause 3. -/

namespace Sys2Proof.Machine

/-- BMASK: h ≤ W − 1 (41_bit_primitives.md R103). -/
def bmaskLegal (w : Width) (hi : Nat) : Bool := decide (hi ≤ w.bits - 1)

/-- The four fixed-point shifters: L ≤ H and F ≤ `F_MAX(H)`, by default H − 1 (42_fixed_point.md R120). -/
def fixedLegal (c : Config) (h l : Width) (f : Nat) : Bool := decide (l.bits ≤ h.bits) && decide (f ≤ fMax c h)

/-- The PUL codec: 1 ≤ M ≤ min(L − log₂ H, H − 1) (43_pul_codec.md R140). -/
def pulLegal (h l : Width) (m : Nat) : Bool :=
  decide (1 ≤ m) && decide (m ≤ min (l.bits - h.log2Bits) (h.bits - 1))

/-- The SLOG codec: 1 ≤ M ≤ min(L − 1 − log₂ H, H − 1) and F ≤ `F_MAX(H)`, by default H − 1
(44_slog_codec.md R160). -/
def slogLegal (c : Config) (h l : Width) (m f : Nat) : Bool :=
  decide (1 ≤ m) && decide (m ≤ min (l.bits - 1 - h.log2Bits) (h.bits - 1)) && decide (f ≤ fMax c h)

/-- The PUL side of a transcoder: 1 ≤ M ≤ L − 1 (45_transcoders.md R190). -/
def pulSideLegal (l : Width) (m : Nat) : Bool := decide (1 ≤ m) && decide (m ≤ l.bits - 1)

/-- The SLOG side of a transcoder: 1 ≤ M ≤ L − 2 (45_transcoders.md R190). -/
def slogSideLegal (l : Width) (m : Nat) : Bool := decide (1 ≤ m) && decide (m ≤ l.bits - 2)

/-- All parameter conditions, operation by operation (60_exceptions.md R218, third column). -/
def paramsLegal (c : Config) : Instr → Bool
  | .clz _ => true
  | .fls _ => true
  | .log2f _ => true
  | .bmask w hi => bmaskLegal w hi.toNat
  | .umin _ => true
  | .umax _ => true
  | .smin _ => true
  | .smax _ => true
  | .pulmaxm _ _ => true
  | .slogmaxm _ _ => true
  | .tofpu h l f => fixedLegal c h l f.toNat
  | .tofps h l f => fixedLegal c h l f.toNat
  | .fromfpu h l f => fixedLegal c h l f.toNat
  | .fromfps h l f => fixedLegal c h l f.toNat
  | .pulenc h l m => pulLegal h l m.toNat
  | .puldec h l m => pulLegal h l m.toNat
  | .slogenc h l m f => slogLegal c h l m.toNat f.toNat
  | .slogdec h l m f => slogLegal c h l m.toNat f.toNat
  | .slogencc h l m f => slogLegal c h l m.toNat f.toNat
  | .slogdecc h l m f => slogLegal c h l m.toNat f.toNat
  | .pul2pul li lo mi mo => pulSideLegal li mi.toNat && pulSideLegal lo mo.toNat
  | .slog2slog li lo mi mo => slogSideLegal li mi.toNat && slogSideLegal lo mo.toNat
  | .pul2slog li lo mi mo => pulSideLegal li mi.toNat && slogSideLegal lo mo.toNat
  | .slog2pul li lo mi mo => slogSideLegal li mi.toNat && pulSideLegal lo mo.toNat

end Sys2Proof.Machine
end

