-- ==== Sys2Proof/Decode.lean ====
section
/-! DEFINITION. The request word (30_encoding.md Part B): its fields, the decoder, total on every word
and rejecting by a named cause, and the encoder, written from the same table R80. -/

namespace Sys2Proof

/-- Field `op`, bits [4:0] (30_encoding.md R70). -/
def fieldOp (c : CmdWord) : BitVec 5 := c.extractLsb' 0 5
/-- Field `wh`, bits [6:5] (R70). -/
def fieldWh (c : CmdWord) : BitVec 2 := c.extractLsb' 5 2
/-- Field `wl`, bits [8:7] (R70). -/
def fieldWl (c : CmdWord) : BitVec 2 := c.extractLsb' 7 2
/-- Field `p`, bits [14:9] (R70). -/
def fieldP (c : CmdWord) : Param := c.extractLsb' 9 6
/-- Field `q`, bits [20:15] (R70). -/
def fieldQ (c : CmdWord) : Param := c.extractLsb' 15 6
/-- Field `rsv`, bits [31:21], which must be zero (R70, R72). -/
def fieldRsv (c : CmdWord) : BitVec 11 := c.extractLsb' 21 11

/-- The width code: c stands for 8 · 2^c; every code is legal (R71). -/
def widthOfCode (c : BitVec 2) : Width :=
  match c.toNat with
  | 0 => .w8
  | 1 => .w16
  | 2 => .w32
  | _ => .w64

/-- The code of a width (R71). -/
def codeOfWidth : Width → BitVec 2
  | .w8 => 0
  | .w16 => 1
  | .w32 => 2
  | .w64 => 3

/-- Which of the fields `wl`, `p`, `q` an operation uses (R80, the non-blank cells). -/
structure Uses where
  wl : Bool
  p : Bool
  q : Bool
  deriving DecidableEq, Repr

/-- The reserved bits are zero (R72) and so is every field the operation does not use (R73). -/
def unusedClear (u : Uses) (c : CmdWord) : Bool :=
  decide (fieldRsv c = 0) && (u.wl || decide (fieldWl c = 0)) && (u.p || decide (fieldP c = 0)) &&
    (u.q || decide (fieldQ c = 0))

/-- One row of the map: the instruction if its unused bits are clear, else cause 2 (R72, R73). -/
def row (u : Uses) (c : CmdWord) (i : Instr) : Except Cause Instr :=
  if unusedClear u c then .ok i else .error .reservedField

/-- Operations that use `wh` alone. -/
def usesW : Uses := ⟨false, false, false⟩
/-- BMASK: `wh`, `p`. -/
def usesWP : Uses := ⟨false, true, false⟩
/-- PULMAXM, SLOGMAXM: `wh`, `wl`. -/
def usesHL : Uses := ⟨true, false, false⟩
/-- The fixed-point shifters: `wh`, `wl`, `q`. -/
def usesHLQ : Uses := ⟨true, false, true⟩
/-- The PUL codec: `wh`, `wl`, `p`. -/
def usesHLP : Uses := ⟨true, true, false⟩
/-- The SLOG codec and the transcoders: every field. -/
def usesAll : Uses := ⟨true, true, true⟩

/-- The decoder: the operation map of R80, op by op; `op` 24 to 31 is cause 1 whatever the other bits
hold (R81; 60_exceptions.md R212 on priority). -/
def decode (c : CmdWord) : Except Cause Instr :=
  let wh := widthOfCode (fieldWh c)
  let wl := widthOfCode (fieldWl c)
  let p := fieldP c
  let q := fieldQ c
  match (fieldOp c).toNat with
  | 0 => row usesW c (.clz wh)
  | 1 => row usesW c (.fls wh)
  | 2 => row usesW c (.log2f wh)
  | 3 => row usesWP c (.bmask wh p)
  | 4 => row usesW c (.umin wh)
  | 5 => row usesW c (.umax wh)
  | 6 => row usesW c (.smin wh)
  | 7 => row usesW c (.smax wh)
  | 8 => row usesHL c (.pulmaxm wh wl)
  | 9 => row usesHL c (.slogmaxm wh wl)
  | 10 => row usesHLQ c (.tofpu wh wl q)
  | 11 => row usesHLQ c (.tofps wh wl q)
  | 12 => row usesHLQ c (.fromfpu wh wl q)
  | 13 => row usesHLQ c (.fromfps wh wl q)
  | 14 => row usesHLP c (.pulenc wh wl p)
  | 15 => row usesHLP c (.puldec wh wl p)
  | 16 => row usesAll c (.slogenc wh wl p q)
  | 17 => row usesAll c (.slogdec wh wl p q)
  | 18 => row usesAll c (.slogencc wh wl p q)
  | 19 => row usesAll c (.slogdecc wh wl p q)
  | 20 => row usesAll c (.pul2pul wh wl p q)
  | 21 => row usesAll c (.slog2slog wh wl p q)
  | 22 => row usesAll c (.pul2slog wh wl p q)
  | 23 => row usesAll c (.slog2pul wh wl p q)
  | _ => .error .reservedOperation

/-- A request word from its fields, reserved bits zero: `op | wh << 5 | wl << 7 | p << 9 | q << 15` (R70). -/
def pack (op : BitVec 5) (wh wl : BitVec 2) (p q : Param) : CmdWord :=
  op.setWidth 32 ||| wh.setWidth 32 <<< 5 ||| wl.setWidth 32 <<< 7 ||| p.setWidth 32 <<< 9 |||
    q.setWidth 32 <<< 15

/-- The encoder: the request word of an instruction (R70, R80); unused fields are zero (R73). -/
def encode : Instr → CmdWord
  | .clz w => pack 0 (codeOfWidth w) 0 0 0
  | .fls w => pack 1 (codeOfWidth w) 0 0 0
  | .log2f w => pack 2 (codeOfWidth w) 0 0 0
  | .bmask w hi => pack 3 (codeOfWidth w) 0 hi 0
  | .umin w => pack 4 (codeOfWidth w) 0 0 0
  | .umax w => pack 5 (codeOfWidth w) 0 0 0
  | .smin w => pack 6 (codeOfWidth w) 0 0 0
  | .smax w => pack 7 (codeOfWidth w) 0 0 0
  | .pulmaxm h l => pack 8 (codeOfWidth h) (codeOfWidth l) 0 0
  | .slogmaxm h l => pack 9 (codeOfWidth h) (codeOfWidth l) 0 0
  | .tofpu h l f => pack 10 (codeOfWidth h) (codeOfWidth l) 0 f
  | .tofps h l f => pack 11 (codeOfWidth h) (codeOfWidth l) 0 f
  | .fromfpu h l f => pack 12 (codeOfWidth h) (codeOfWidth l) 0 f
  | .fromfps h l f => pack 13 (codeOfWidth h) (codeOfWidth l) 0 f
  | .pulenc h l m => pack 14 (codeOfWidth h) (codeOfWidth l) m 0
  | .puldec h l m => pack 15 (codeOfWidth h) (codeOfWidth l) m 0
  | .slogenc h l m f => pack 16 (codeOfWidth h) (codeOfWidth l) m f
  | .slogdec h l m f => pack 17 (codeOfWidth h) (codeOfWidth l) m f
  | .slogencc h l m f => pack 18 (codeOfWidth h) (codeOfWidth l) m f
  | .slogdecc h l m f => pack 19 (codeOfWidth h) (codeOfWidth l) m f
  | .pul2pul li lo mi mo => pack 20 (codeOfWidth li) (codeOfWidth lo) mi mo
  | .slog2slog li lo mi mo => pack 21 (codeOfWidth li) (codeOfWidth lo) mi mo
  | .pul2slog li lo mi mo => pack 22 (codeOfWidth li) (codeOfWidth lo) mi mo
  | .slog2pul li lo mi mo => pack 23 (codeOfWidth li) (codeOfWidth lo) mi mo

/-- The request word whose low `nbits` bits are those of `w`, every bit above zero: the opcode table
numbers the bits as the port does, bit 0 least significant (00_scope.md R7; 30_encoding.md R70). -/
def tableWord (nbits w : Nat) : CmdWord := BitVec.ofNat 32 (w % 2 ^ nbits)

/-- The instruction the decoder reads from a word numbered as the opcode table numbers it. -/
def decodeTableWord (nbits w : Nat) : Option Instr :=
  match decode (tableWord nbits w) with
  | .ok i => some i
  | .error _ => none

end Sys2Proof
end

