-- ==== Sys2Proof/Machine/Flags.lean ====
section
/-! DEFINITION. The block has no flags (10_state.md R22). What a response says beside its result is `ill`
and `cause`; this file gives the cause codes (60_exceptions.md R212). -/

namespace Sys2Proof.Machine

/-- The 3-bit code of a cause (60_exceptions.md R212). -/
def causeCode : Cause → BitVec 3
  | .reservedOperation => 1
  | .reservedField => 2
  | .parameterRange => 3
  | .operandRange => 4

/-- The cause code of a response with `ill` = 0 (60_exceptions.md R212). -/
def causeNone : BitVec 3 := 0

end Sys2Proof.Machine
end

