-- ==== Sys2Proof/Machine/Ops.lean ====
section
/-! DEFINITION. The operations every meaning is built from: reading the request port, driving a legal
response, raising an illegal request (the block's one exception), and reading a correction table. -/

namespace Sys2Proof.Machine

/-- The host places a request on the request port (10_state.md R30; log entry 8). -/
def State.present (s : State) (q : Request) : State := { s with cmd := q.cmd, a := q.a }

/-- Reading the request word at the port; the block fetches nothing else (10_state.md R21; 20_memory.md
R49). -/
def State.fetch (s : State) : Except Cause Instr := decode s.cmd

/-- The state after a legal response: `r` is the result zero-extended to 64 bits (30_encoding.md R75),
`ill` = 0, `cause` = 0 (60_exceptions.md R212); nothing else changes. -/
def State.answered (s : State) (v : Nat) : State :=
  { s with rsp := some { r := BitVec.ofNat 64 v, ill := false, cause := causeNone } }

/-- Taking the block's one exception, `raise IllegalRequest(cause)`: `ill` = 1, the cause code, and `r` a
free draw; nothing else is recorded and nothing else changes (60_exceptions.md R211, R212, R222). There is
no return from it (R223). -/
def State.raised (s : State) (c : Cause) : State :=
  { s with
    rsp := some { r := Config.freeResult s.draws, ill := true, cause := causeCode c }
    draws := s.draws + 1 }

/-- A meaning's legal end. -/
def answer (v : Nat) (s : State) : Result := .next (s.answered v)

/-- A meaning's illegal end. -/
def raise (c : Cause) (s : State) : Result := .next (s.raised c)

/-- Answer `v` when the parameters are legal, else raise cause 3 (30_encoding.md R84). -/
def answerWhen (legal : Bool) (v : Nat) (s : State) : Result :=
  if legal then answer v s else raise .parameterRange s

/-- Answer `v` when the operand is not 0, else raise cause 4 (60_exceptions.md R218: CLZ and LOG2F). -/
def answerNonzero (operand v : Nat) (s : State) : Result :=
  if operand = 0 then raise .operandRange s else answer v s

/-- Entry `i` of a correction table (10_state.md R25). The index is always below 256 (44_slog_codec.md
R165); what stands here for another index is never read. Log entry 7. -/
def tableEntry (t : Vector Nat 256) (i : Nat) : Nat := if h : i < 256 then t[i] else 0

end Sys2Proof.Machine
end

