-- ==== Sys2Proof/Machine/BitPrimitives.lean ====
section
/-! DEFINITION. The bit primitives: CLZ, FLS, LOG2F, BMASK, the min/max constants and the mantissa
budgets (41_bit_primitives.md). -/

namespace Sys2Proof.Machine

/-- CLZ, 41_bit_primitives.md R100. -/
def execClz (w : Width) (s : State) : Result :=
  let v := s.operand w
  answerNonzero v (nlz w.bits v) s

/-- FLS, 41_bit_primitives.md R101: defined as 0 at 0. -/
def execFls (w : Width) (s : State) : Result :=
  let v := s.operand w
  answer (if v = 0 then 0 else w.bits - nlz w.bits v) s

/-- LOG2F, 41_bit_primitives.md R102. -/
def execLog2f (w : Width) (s : State) : Result :=
  let v := s.operand w
  answerNonzero v (w.bits - 1 - nlz w.bits v) s

/-- BMASK, 41_bit_primitives.md R103: the low h + 1 bits set. -/
def execBmask (w : Width) (hi : Param) (s : State) : Result :=
  answerWhen (bmaskLegal w hi.toNat) (2 ^ (hi.toNat + 1) - 1) s

/-- UMIN, 41_bit_primitives.md R104: 1 for every width. -/
def execUmin (_ : Width) (s : State) : Result := answer 1 s

/-- UMAX, 41_bit_primitives.md R105. -/
def execUmax (w : Width) (s : State) : Result := answer (2 ^ w.bits - 1) s

/-- SMIN, 41_bit_primitives.md R106: the W-bit pattern of −2^(W−1), not sign-extended. -/
def execSmin (w : Width) (s : State) : Result := answer (trunc w.bits (-(2 ^ (w.bits - 1)))) s

/-- SMAX, 41_bit_primitives.md R107. -/
def execSmax (w : Width) (s : State) : Result := answer (2 ^ (w.bits - 1) - 1) s

/-- PULMAXM, 41_bit_primitives.md R108: L − log₂ H. -/
def execPulmaxm (h l : Width) (s : State) : Result := answer (l.bits - h.log2Bits) s

/-- SLOGMAXM, 41_bit_primitives.md R109: L − 1 − log₂ H. -/
def execSlogmaxm (h l : Width) (s : State) : Result := answer (l.bits - 1 - h.log2Bits) s

end Sys2Proof.Machine
end

