-- ==== Sys2Proof/Machine/FixedPoint.lean ====
section
/-! DEFINITION. The linear fixed-point shifters (42_fixed_point.md). No saturation, no rounding, no
overflow indication (R126). -/

namespace Sys2Proof.Machine

/-- TOFPU, 42_fixed_point.md R121: the low H bits of v · 2^F. -/
def execTofpu (h l : Width) (f : Param) (s : State) : Result :=
  answerWhen (fixedLegal s.cfg h l f.toNat) (trunc h.bits (shl (s.operand l) f.toNat)) s

/-- TOFPS, 42_fixed_point.md R122: the low H bits of s · 2^F, the operand read as signed. -/
def execTofps (h l : Width) (f : Param) (s : State) : Result :=
  answerWhen (fixedLegal s.cfg h l f.toNat) (trunc h.bits (shl (s.operandS l) f.toNat)) s

/-- FROMFPU, 42_fixed_point.md R123: logical right shift, then the low L bits. -/
def execFromfpu (h l : Width) (f : Param) (s : State) : Result :=
  answerWhen (fixedLegal s.cfg h l f.toNat) (trunc l.bits (shr (s.operand h) f.toNat)) s

/-- FROMFPS, 42_fixed_point.md R124: arithmetic right shift, then the low L bits. -/
def execFromfps (h l : Width) (f : Param) (s : State) : Result :=
  answerWhen (fixedLegal s.cfg h l f.toNat) (trunc l.bits (shr (s.operandS h) f.toNat)) s

end Sys2Proof.Machine
end

