-- ==== Sys2Proof/Machine/Codec.lean ====
section
/-! DEFINITION. The two steps the PUL and SLOG codecs share: the encoders' normalised mantissa and the
decoders' reconstruction. Plain integers H, L, M as in the pseudocode. -/

namespace Sys2Proof.Machine

/-- `norm = trunc_H(shl(v, c))` with c = `nlz_H(v)`: v with its leading one at bit H − 1
(43_pul_codec.md R141; 44_slog_codec.md R161). -/
def normalised (H v : Nat) : Nat := trunc H (shl v (nlz H v))

/-- `m = shr(norm, H − 1 − M)`: M + 1 bits, the leading one at bit M (43_pul_codec.md R141 step 4;
44_slog_codec.md R161 step 4). -/
def leadingMantissa (H M v : Nat) : Nat := normalised H v / 2 ^ (H - 1 - M)

/-- `norm = 2^(H−1) | shl(m, H − 1 − M)`, then `shr(norm, H − 1 − e)` (43_pul_codec.md R143 steps 5 and 6;
44_slog_codec.md R163 step 6). -/
def reconstruct (H M m e : Nat) : Nat := (2 ^ (H - 1) ||| m * 2 ^ (H - 1 - M)) / 2 ^ (H - 1 - e)

end Sys2Proof.Machine
end

