-- ==== Sys2Proof/Machine/PulCodec.lean ====
section
/-! DEFINITION. The PUL codec (43_pul_codec.md). -/

namespace Sys2Proof.Machine

/-- The PUL codeword of an integer v of width H, as R141's pseudocode computes it. -/
def pulEncode (H L M v : Nat) : Nat :=
  if v ≤ 1 then 1 - v
  else
    let c := nlz H v
    let e := H - 2 - c
    (e * 2 ^ M + leadingMantissa H M v) % 2 ^ L

/-- The integer of width H that a PUL codeword stands for, as R143's pseudocode computes it. -/
def pulDecode (H M cw : Nat) : Nat :=
  if cw = 1 then 0
  else
    let e := cw / 2 ^ M
    if H ≤ e then 2 ^ H - 1 else reconstruct H M (cw % 2 ^ M) e

/-- PULENC, 43_pul_codec.md R141. -/
def execPulenc (h l : Width) (m : Param) (s : State) : Result :=
  answerWhen (pulLegal h l m.toNat) (pulEncode h.bits l.bits m.toNat (s.operand h)) s

/-- PULDEC, 43_pul_codec.md R143. -/
def execPuldec (h l : Width) (m : Param) (s : State) : Result :=
  answerWhen (pulLegal h l m.toNat) (pulDecode h.bits m.toNat (s.operand l)) s

end Sys2Proof.Machine
end

