-- ==== Sys2Proof/Machine/SlogCodec.lean ====
section
/-! DEFINITION. The SLOG codec, uncorrected and corrected (44_slog_codec.md). -/

namespace Sys2Proof.Machine

/-- `idx8(f, M)`: the top 8 bits of the M-bit fraction, left-justified when M < 8 (R165). -/
def idx8 (f M : Nat) : Nat := if 8 ≤ M then f / 2 ^ (M - 8) else f * 2 ^ (8 - M)

/-- `scaleM(t, M)`: a table entry in units of 2^−M, truncating (R165). -/
def scaleM (lutQ t M : Nat) : Nat := if M ≤ lutQ then t / 2 ^ (lutQ - M) else t * 2 ^ (M - lutQ)

/-- `ecorr(f, M)` (R165). -/
def ecorr (c : Config) (f M : Nat) : Nat := scaleM c.lutQ (tableEntry c.encLut (idx8 f M)) M

/-- `dcorr(f, M)` (R165). -/
def dcorr (c : Config) (f M : Nat) : Nat := scaleM c.lutQ (tableEntry c.decLut (idx8 f M)) M

/-- D0's combined exponent e' = H − 2 − c − F, a signed integer (R161 step 3). -/
def slogExponent (H F v : Nat) : Int := (H : Int) - 2 - nlz H v - F

/-- The SLOG codeword of a fixed-point value v of width H with F fraction bits (R161). -/
def slogEncode (H L M F v : Nat) : Nat :=
  if v = 0 then 2 ^ (L - 1)
  else trunc L (slogExponent H F v * 2 ^ M + leadingMantissa H M v)

/-- The corrected mantissa fraction: the entry is added and the sum clamped, so that it never carries
into the exponent (R166). -/
def correctedFraction (c : Config) (M frac : Nat) : Nat := min (frac + ecorr c frac M) (2 ^ M - 1)

/-- The corrected SLOG codeword (R166). -/
def slogEncodeCorrected (c : Config) (H L M F v : Nat) : Nat :=
  if v = 0 then 2 ^ (L - 1)
  else
    let frac := leadingMantissa H M v - 2 ^ M
    trunc L (slogExponent H F v * 2 ^ M + 2 ^ M + correctedFraction c M frac)

/-- Exponent and mantissa of a codeword s, by the configuration's reading of negative words (R163). -/
def slogSplit (neg : SlogdecNeg) (M : Nat) (s : Int) : Int × Nat :=
  match neg with
  | .asWritten =>
    let mag := s.natAbs
    let e : Int := (mag / 2 ^ M : Nat)
    (if s < 0 then -e else e, mag % 2 ^ M)
  | .floor =>
    let e := shr s M
    (e, (s - e * 2 ^ M).toNat)

/-- Decoding (R163), with the mantissa passed through `fix` before reconstruction: nothing for SLOGDEC,
the correction for SLOGDECC (R167). -/
def slogDecodeWith (fix : Nat → Nat) (neg : SlogdecNeg) (H L M F cw : Nat) : Nat :=
  if cw = 2 ^ (L - 1) then 0
  else
    let em := slogSplit neg M (sint L cw)
    let se := em.1 + F
    if se < 0 then 0
    else if (H : Int) ≤ se then 2 ^ H - 1
    else reconstruct H M (fix em.2) se.toNat

/-- SLOGENC, 44_slog_codec.md R161. -/
def execSlogenc (h l : Width) (m f : Param) (s : State) : Result :=
  answerWhen (slogLegal s.cfg h l m.toNat f.toNat)
    (slogEncode h.bits l.bits m.toNat f.toNat (s.operand h)) s

/-- SLOGDEC, 44_slog_codec.md R163. -/
def execSlogdec (h l : Width) (m f : Param) (s : State) : Result :=
  answerWhen (slogLegal s.cfg h l m.toNat f.toNat)
    (slogDecodeWith id s.cfg.slogdecNeg h.bits l.bits m.toNat f.toNat (s.operand l)) s

/-- SLOGENCC, 44_slog_codec.md R166. -/
def execSlogencc (h l : Width) (m f : Param) (s : State) : Result :=
  answerWhen (slogLegal s.cfg h l m.toNat f.toNat)
    (slogEncodeCorrected s.cfg h.bits l.bits m.toNat f.toNat (s.operand h)) s

/-- SLOGDECC, 44_slog_codec.md R167: the subtraction is clamped at 0, which only tables other than the
default could reach (R165 "or clamp"; log entry 6). -/
def execSlogdecc (h l : Width) (m f : Param) (s : State) : Result :=
  answerWhen (slogLegal s.cfg h l m.toNat f.toNat)
    (slogDecodeWith (fun x => x - dcorr s.cfg x m.toNat) s.cfg.slogdecNeg h.bits l.bits m.toNat f.toNat
      (s.operand l)) s

end Sys2Proof.Machine
end

