-- ==== Sys2Proof/Machine/Transcoders.lean ====
section
/-! DEFINITION. The cross-format transcoders (45_transcoders.md): one shift on the unbounded integer, then
the low L_out bits, with the sentinels remapped. -/

namespace Sys2Proof.Machine

/-- The shift every transcoder makes: `trunc_Lout(realign(x, Mout − Min))` (R191 to R194). -/
def transcode (lo : Width) (mi mo : Param) (x : Int) : Nat :=
  trunc lo.bits (realign x ((mo.toNat : Int) - mi.toNat))

/-- PUL2PUL, 45_transcoders.md R191. -/
def execPul2pul (li lo : Width) (mi mo : Param) (s : State) : Result :=
  let cw := s.operand li
  answerWhen (pulSideLegal li mi.toNat && pulSideLegal lo mo.toNat)
    (if cw = 1 then 1 else transcode lo mi mo cw) s

/-- SLOG2SLOG, 45_transcoders.md R192. -/
def execSlog2slog (li lo : Width) (mi mo : Param) (s : State) : Result :=
  answerWhen (slogSideLegal li mi.toNat && slogSideLegal lo mo.toNat)
    (if s.operand li = 2 ^ (li.bits - 1) then 2 ^ (lo.bits - 1) else transcode lo mi mo (s.operandS li)) s

/-- PUL2SLOG, 45_transcoders.md R193. -/
def execPul2slog (li lo : Width) (mi mo : Param) (s : State) : Result :=
  let cw := s.operand li
  answerWhen (pulSideLegal li mi.toNat && slogSideLegal lo mo.toNat)
    (if cw = 1 then 2 ^ (lo.bits - 1) else transcode lo mi mo cw) s

/-- SLOG2PUL, 45_transcoders.md R194: every negative codeword, the sentinel among them, gives PUL-zero. -/
def execSlog2pul (li lo : Width) (mi mo : Param) (s : State) : Result :=
  let x := s.operandS li
  answerWhen (slogSideLegal li mi.toNat && pulSideLegal lo mo.toNat)
    (if x < 0 then 1 else transcode lo mi mo x) s

end Sys2Proof.Machine
end

