-- ==== Sys2Proof/Machine/Dispatch.lean ====
section
/-! DEFINITION. The dispatch: one arm per operation of 30_encoding.md R80. -/

namespace Sys2Proof.Machine

def exec (i : Instr) (s : State) : Host.Outcome State Fault Refusal :=
  match i with
  | .clz w => Sys2Proof.Machine.execClz w s
  | .fls w => Sys2Proof.Machine.execFls w s
  | .log2f w => Sys2Proof.Machine.execLog2f w s
  | .bmask w hi => Sys2Proof.Machine.execBmask w hi s
  | .umin w => Sys2Proof.Machine.execUmin w s
  | .umax w => Sys2Proof.Machine.execUmax w s
  | .smin w => Sys2Proof.Machine.execSmin w s
  | .smax w => Sys2Proof.Machine.execSmax w s
  | .pulmaxm h l => Sys2Proof.Machine.execPulmaxm h l s
  | .slogmaxm h l => Sys2Proof.Machine.execSlogmaxm h l s
  | .tofpu h l f => Sys2Proof.Machine.execTofpu h l f s
  | .tofps h l f => Sys2Proof.Machine.execTofps h l f s
  | .fromfpu h l f => Sys2Proof.Machine.execFromfpu h l f s
  | .fromfps h l f => Sys2Proof.Machine.execFromfps h l f s
  | .pulenc h l m => Sys2Proof.Machine.execPulenc h l m s
  | .puldec h l m => Sys2Proof.Machine.execPuldec h l m s
  | .slogenc h l m f => Sys2Proof.Machine.execSlogenc h l m f s
  | .slogdec h l m f => Sys2Proof.Machine.execSlogdec h l m f s
  | .slogencc h l m f => Sys2Proof.Machine.execSlogencc h l m f s
  | .slogdecc h l m f => Sys2Proof.Machine.execSlogdecc h l m f s
  | .pul2pul li lo mi mo => Sys2Proof.Machine.execPul2pul li lo mi mo s
  | .slog2slog li lo mi mo => Sys2Proof.Machine.execSlog2slog li lo mi mo s
  | .pul2slog li lo mi mo => Sys2Proof.Machine.execPul2slog li lo mi mo s
  | .slog2pul li lo mi mo => Sys2Proof.Machine.execSlog2pul li lo mi mo s

end Sys2Proof.Machine
end

