-- ==== Sys2Proof/Machine/Step.lean ====
section
/-! DEFINITION. The block's one step (10_state.md R31): read the request on the ports, answer it. -/

namespace Sys2Proof.Machine

/-- One step: the request word selects an operation and the operation answers; a word that selects none,
or sets a reserved or unused bit, is an illegal request with the decoder's cause (60_exceptions.md R212).
Nothing advances (10_state.md R21): a step with the same request on the ports answers it again. -/
def step (s : State) : Host.Outcome State Fault Refusal :=
  match s.fetch with
  | .ok i => exec i s
  | .error c => raise c s

/-- `s` with the table word `w` on the request port, where the next step reads it (log entry 8). -/
def State.withFetchWord (s : State) (nbits w : Nat) : State := { s with cmd := tableWord nbits w }

end Sys2Proof.Machine
end

