-- ==== Sys2Proof/Machine/Session.lean ====
section
/-! DEFINITION. A host that presents one request after another (10_state.md R31, R32): the run of n requests
and its n responses. The host's own steps between requests (additions, roundings) are not the block's
(00_scope.md R4). -/

namespace Sys2Proof.Machine

/-- One request served: the host presents it, the block steps, and the response is what stands at the
response port (10_state.md R31). `none` would be a step that stops or answers nothing. -/
def serveOne (q : Request) (s : State) : Option (Response × State) :=
  match step (s.present q) with
  | .next t => t.rsp.map fun y => (y, t)
  | _ => none

/-- A script of requests served in order, with the responses in the same order (10_state.md R32). -/
def serve : List Request → State → Option (List Response × State)
  | [], s => some ([], s)
  | q :: qs, s =>
    match serveOne q s with
    | none => none
    | some (y, t) =>
      match serve qs t with
      | none => none
      | some (ys, u) => some (y :: ys, u)

end Sys2Proof.Machine
end

