-- ==== Sys2Proof/WellFormed.lean ====
section
/-! DEFINITION. When an instruction is well formed: its parameters meet the operation's 'Legal when'
condition (30_encoding.md R84; 60_exceptions.md R218). Every term of `Instr` has an encoding; an
ill-formed one decodes and is answered with cause 3. -/

namespace Sys2Proof

/-- The parameters of `i` are legal in the configuration `c` (30_encoding.md R84); of `c` only
`F_MAX` counts. The operand condition of CLZ and LOG2F is no part of it: it is about the request's
operand, not about the instruction. -/
def Instr.wellFormed (c : Config) (i : Instr) : Bool := Machine.paramsLegal c i

end Sys2Proof
end

