-- ==== Sys2Proof/Safety.lean ====
section
/-! DEFINITION. The terms the statements use: what a legal and an illegal response leave, when a response
and a state are sound, the request word by its formula, the opcode table's rows, the conditions of
60_exceptions.md R218 on raw fields, and the closed forms of the codecs' values. Nothing here is used by
the machine. -/

namespace Sys2Proof.Machine

/-! ### What a step leaves -/

/-- The state after a legal response with result `v`: `r` = v, `ill` = 0, `cause` = 0, all else as it was
(60_exceptions.md R212; 10_state.md R31). -/
def legalNext (s : State) (v : Nat) : State :=
  { s with rsp := some { r := BitVec.ofNat 64 v, ill := false, cause := 0 } }

/-- `t` is a state after an illegal response with cause `c`: `ill` = 1, the cause, some `r`, and all else
as it was but for the model's own count of free draws (60_exceptions.md R212). -/
def IllegalNext (s t : State) (c : Nat) : Prop :=
  ∃ r, t = { s with rsp := some { r := r, ill := true, cause := BitVec.ofNat 3 c }, draws := s.draws + 1 }

/-- The host presents `x` as the next operand. -/
def State.withOperand (s : State) (x : Nat) : State := { s with a := BitVec.ofNat 64 x }

/-- Two responses agree in all that is specified: `ill`, `cause`, and `r` when legal (60_exceptions.md
R212: `r` of an illegal response is unspecified). -/
def SameResponse (y z : Response) : Prop :=
  y.ill = z.ill ∧ y.cause = z.cause ∧ (y.ill = false → y.r = z.r)

/-- A response is sound: `cause` is 0 exactly when the request was legal, and codes 5 to 7 are never driven
(60_exceptions.md R212). -/
def Response.Sound (y : Response) : Prop := (y.ill = false ↔ y.cause = 0) ∧ y.cause.toNat ≤ 4

/-- The side conditions 44_slog_codec.md R165 puts on tables taken as configuration: entry 0 is 0 in both
and the decode correction never exceeds the fraction. -/
def ConfigSound (c : Config) : Prop :=
  tableEntry c.encLut 0 = 0 ∧ tableEntry c.decLut 0 = 0 ∧ ∀ M f, f < 2 ^ M → dcorr c f M ≤ f

/-- The invariant: whatever stands at the response port is sound, and so is the configuration. -/
def State.Inv (s : State) : Prop := (∀ y, s.rsp = some y → y.Sound) ∧ ConfigSound s.cfg

/-! ### The request word and the opcode table -/

/-- The number c of the width 8 · 2^c (30_encoding.md R71). -/
def widthCode (w : Width) : Nat := w.log2Bits - 3

/-- `cmd = op | wh << 5 | wl << 7 | p << 9 | q << 15`, on numbers (30_encoding.md R70). -/
def requestWord (op wh wl p q : Nat) : CmdWord :=
  BitVec.ofNat 32 (op + wh * 2 ^ 5 + wl * 2 ^ 7 + p * 2 ^ 9 + q * 2 ^ 15)

/-- A bit field of the request word as a number: `cmd[lo+n−1:lo]` (00_scope.md R7). -/
def cmdField (c : CmdWord) (lo n : Nat) : Nat := c.toNat / 2 ^ lo % 2 ^ n

/-- `mask` and `match` of the 24 rows of spec/opcode_table.json, in the order of `op` (30_encoding.md R80). -/
def opcodeRows : List (CmdWord × CmdWord) :=
  [(0xFFFFFF9F, 0x00), (0xFFFFFF9F, 0x01), (0xFFFFFF9F, 0x02), (0xFFFF819F, 0x03),
   (0xFFFFFF9F, 0x04), (0xFFFFFF9F, 0x05), (0xFFFFFF9F, 0x06), (0xFFFFFF9F, 0x07),
   (0xFFFFFE1F, 0x08), (0xFFFFFE1F, 0x09), (0xFFE07E1F, 0x0A), (0xFFE07E1F, 0x0B),
   (0xFFE07E1F, 0x0C), (0xFFE07E1F, 0x0D), (0xFFFF801F, 0x0E), (0xFFFF801F, 0x0F),
   (0xFFE0001F, 0x10), (0xFFE0001F, 0x11), (0xFFE0001F, 0x12), (0xFFE0001F, 0x13),
   (0xFFE0001F, 0x14), (0xFFE0001F, 0x15), (0xFFE0001F, 0x16), (0xFFE0001F, 0x17)]

/-- A request word selects a row when `cmd & mask = match` (30_encoding.md R80). -/
def MatchesARow (c : CmdWord) : Prop := ∃ x ∈ opcodeRows, c &&& x.1 = x.2

/-- The number of operand bits an operation reads, 0 where it has no operand (30_encoding.md R80, column
'operand'). -/
def operandBits : Instr → Nat
  | .clz w | .fls w | .log2f w => w.bits
  | .bmask _ _ | .umin _ | .umax _ | .smin _ | .smax _ | .pulmaxm _ _ | .slogmaxm _ _ => 0
  | .tofpu _ l _ | .tofps _ l _ => l.bits
  | .fromfpu h _ _ | .fromfps h _ _ => h.bits
  | .pulenc h _ _ | .slogenc h _ _ _ | .slogencc h _ _ _ => h.bits
  | .puldec _ l _ | .slogdec _ l _ _ | .slogdecc _ l _ _ => l.bits
  | .pul2pul li _ _ _ | .slog2slog li _ _ _ | .pul2slog li _ _ _ | .slog2pul li _ _ _ => li.bits

/-- The number of result bits of an operation, 7 for a count (30_encoding.md R75; R80, column 'result'). -/
def resultBits : Instr → Nat
  | .clz _ | .fls _ | .log2f _ | .pulmaxm _ _ | .slogmaxm _ _ => 7
  | .bmask w _ | .umin w | .umax w | .smin w | .smax w => w.bits
  | .tofpu h _ _ | .tofps h _ _ => h.bits
  | .fromfpu _ l _ | .fromfps _ l _ => l.bits
  | .pulenc _ l _ | .slogenc _ l _ _ | .slogencc _ l _ _ => l.bits
  | .puldec h _ _ | .slogdec h _ _ _ | .slogdecc h _ _ _ => h.bits
  | .pul2pul _ lo _ _ | .slog2slog _ lo _ _ | .pul2slog _ lo _ _ | .slog2pul _ lo _ _ => lo.bits

/-! ### The 'Legal when' conditions -/

/-- 42_fixed_point.md R120 with the configured `F_MAX(H)`, by default H − 1. -/
abbrev FixedParams (c : Config) (h l : Width) (f : Nat) : Prop := l.bits ≤ h.bits ∧ f ≤ fMax c h

/-- 43_pul_codec.md R140. -/
abbrev PulParams (h l : Width) (m : Nat) : Prop :=
  1 ≤ m ∧ m ≤ l.bits - h.log2Bits ∧ m ≤ h.bits - 1

/-- 44_slog_codec.md R160 with the configured `F_MAX(H)`, by default H − 1. -/
abbrev SlogParams (c : Config) (h l : Width) (m f : Nat) : Prop :=
  1 ≤ m ∧ m ≤ l.bits - 1 - h.log2Bits ∧ m ≤ h.bits - 1 ∧ f ≤ fMax c h

/-- `F_MAX` of a raw width X, read off the configuration's fields (92_eei_decisions.md D7). -/
def fMaxAt (c : Config) (X : Nat) : Nat :=
  if X = 8 then c.fMax.w8 else if X = 16 then c.fMax.w16 else if X = 32 then c.fMax.w32 else c.fMax.w64

/-- 45_transcoders.md R190, a PUL side. -/
abbrev PulSide (l : Width) (m : Nat) : Prop := 1 ≤ m ∧ m ≤ l.bits - 1

/-- 45_transcoders.md R190, a SLOG side. -/
abbrev SlogSide (l : Width) (m : Nat) : Prop := 1 ≤ m ∧ m ≤ l.bits - 2

/-- The third column of 60_exceptions.md R218 on the raw fields: X = 8 · 2^wh, Y = 8 · 2^wl; `bound` is the
largest legal F for X. -/
def paramCondition (bound op X Y p q : Nat) : Bool :=
  if op = 3 then decide (p ≤ X - 1)
  else if 10 ≤ op ∧ op ≤ 13 then decide (Y ≤ X ∧ q ≤ bound)
  else if op = 14 ∨ op = 15 then decide (1 ≤ p ∧ p ≤ min (Y - Nat.log2 X) (X - 1))
  else if 16 ≤ op ∧ op ≤ 19 then
    decide (1 ≤ p ∧ p ≤ min (Y - 1 - Nat.log2 X) (X - 1) ∧ q ≤ bound)
  else if op = 20 then decide (1 ≤ p ∧ p ≤ X - 1 ∧ 1 ≤ q ∧ q ≤ Y - 1)
  else if op = 21 then decide (1 ≤ p ∧ p ≤ X - 2 ∧ 1 ≤ q ∧ q ≤ Y - 2)
  else if op = 22 then decide (1 ≤ p ∧ p ≤ X - 1 ∧ 1 ≤ q ∧ q ≤ Y - 2)
  else if op = 23 then decide (1 ≤ p ∧ p ≤ X - 2 ∧ 1 ≤ q ∧ q ≤ Y - 1)
  else true

/-- The cause of a request by 60_exceptions.md R212 and R218, 0 for a legal one: the lowest that applies,
the unused fields judged by the row's mask; `bound` gives the largest legal F of a width. -/
def requestCause (bound : Nat → Nat) (c : CmdWord) (a : Bus) : Nat :=
  let op := cmdField c 0 5
  let X := 8 * 2 ^ cmdField c 5 2
  let Y := 8 * 2 ^ cmdField c 7 2
  if 24 ≤ op then 1
  else if opcodeRows.all (fun x => c &&& x.1 != x.2) then 2
  else if !paramCondition (bound X) op X Y (cmdField c 9 6) (cmdField c 15 6) then 3
  else if (op = 0 ∨ op = 2) ∧ a.toNat % 2 ^ X = 0 then 4
  else 0

/-! ### Closed forms of the codecs' values -/

/-- The M bits of v below its leading one (43_pul_codec.md R142, `frac`). -/
def topFraction (M v : Nat) : Nat := (v - 2 ^ v.log2) * 2 ^ M / 2 ^ v.log2

/-- v with its bits below the top M + 1 cleared (43_pul_codec.md R144). -/
def topBits (M v : Nat) : Nat := if v.log2 ≤ M then v else v / 2 ^ (v.log2 - M) * 2 ^ (v.log2 - M)

/-- The integer (1 + f/2^M) · 2^e, its fraction dropped (30_encoding.md R63). -/
def scaledUp (M f e : Nat) : Nat := (2 ^ M + f) * 2 ^ e / 2 ^ M

/-- What a decoder gives for exponent E and fraction f at width H: 0 below, saturated above
(60_exceptions.md R214, R215; 44_slog_codec.md R163). -/
def decodedValue (H M f : Nat) (E : Int) : Nat :=
  if E < 0 then 0 else if (H : Int) ≤ E then 2 ^ H - 1 else scaledUp M f E.toNat

/-- Exponent E and fraction f are the parts of the codeword x under a setting of `SLOGDEC_NEG`: of |x| with
the sign put back on the exponent, or of x itself with a floor exponent (44_slog_codec.md R163). -/
def PartsOf (neg : SlogdecNeg) (M : Nat) (x E : Int) (f : Nat) : Prop :=
  f < 2 ^ M ∧
    match neg with
    | .asWritten => ∃ e : Nat, (x.natAbs = e * 2 ^ M + f) ∧ E = if x < 0 then -(e : Int) else (e : Int)
    | .floor => x = E * 2 ^ M + f

/-- The correction of a fraction f of M bits: entry ⌊256 · f/2^M⌋ of the table, an entry standing for
t/2^q, in units of 2^−M, truncated (44_slog_codec.md R165). -/
def correction (t : Vector Nat 256) (q f M : Nat) : Nat :=
  t.toList.getD (f * 256 / 2 ^ M) 0 * 2 ^ M / 2 ^ q

/-- The low W bits of a bus value read as signed (00_scope.md R8 `sint`, by bit vectors). -/
def signedAt (W : Nat) (x : Nat) : Int := (BitVec.ofNat W x).toInt

/-- The codeword x of a transcode, realigned from M_in to M_out fraction bits: ⌊x · 2^M_out / 2^M_in⌋
(45_transcoders.md, `realign`). -/
def realigned (x : Int) (mi mo : Nat) : Int := x * 2 ^ mo / 2 ^ mi

end Sys2Proof.Machine
end

