-- ==== Sys2Proof/Certificates/Slice0/Obligations.lean ====
section
/-! DEFINITION. The statements for the provers. `legalNext s v` is s with the response (v, 0, 0) at the
port and nothing else changed, so an equation `exec i s = .next (legalNext s v)` is result, completion and
frame in one; `IllegalNext s t c` is the same for an illegal response of cause c with an unspecified r. -/

open Sys2Proof Sys2Proof.Machine

/-! ### Request words -/

/-- 30_encoding.md R70, R80: the encoder's word of any instruction, whatever its operands, decodes to it. -/
def Obligations.EncodedInstructionDecodesToItself : Prop :=
  ∀ i : Instr, decode (encode i) = .ok i

/-- 30_encoding.md R73: a word that decodes is the one word of its instruction, so decoding is injective;
and a defined operation with reserved bits clear and a non-zero unused field (no row matches) is answered
with cause 2. -/
def Obligations.DecodingIsInjectiveAndUnusedFieldsAreCauseTwo : Prop :=
  (∀ c i, decode c = .ok i → encode i = c) ∧
  (∀ c d i, decode c = .ok i → decode d = .ok i → c = d) ∧
  (∀ s : State, cmdField s.cmd 0 5 < 24 → cmdField s.cmd 21 11 = 0 → ¬ MatchesARow s.cmd →
    ∃ t, step s = .next t ∧ IllegalNext s t 2)

/-- 30_encoding.md R80: a word decodes exactly when it matches a row of the opcode table, and a word that
matches none is exactly a word the decoder rejects with cause 1 (`op` ≥ 24) or cause 2. -/
def Obligations.DecoderAcceptsExactlyTheOpcodeTable : Prop :=
  ∀ c : CmdWord,
    ((∃ i, decode c = .ok i) ↔ MatchesARow c) ∧
    (decode c = .error .reservedOperation ↔ 24 ≤ cmdField c 0 5) ∧
    (decode c = .error .reservedField ↔ cmdField c 0 5 < 24 ∧ ¬ MatchesARow c)

/-- 30_encoding.md R80, 43_pul_codec.md R141, 45_transcoders.md R194: five words written out bit by bit. -/
def Obligations.SampleWordsDecode : Prop :=
  decode 0b00000000000000000000000001000000#32 = .ok (.clz .w32) ∧
  decode 0b00000000000001000000000011001010#32 = .ok (.tofpu .w32 .w16 8) ∧
  decode 0b00000000000000000001010011101110#32 = .ok (.pulenc .w64 .w16 10) ∧
  decode 0b00000000000011001011001101110000#32 = .ok (.slogenc .w64 .w32 25 25) ∧
  decode 0b00000000000001010011001011010111#32 = .ok (.slog2pul .w32 .w16 25 10)

/-- 10_state.md R31, 30_encoding.md R80: a step with a request word that decodes is that operation, with
nothing added around it. -/
def Obligations.StepRunsTheDecodedOperation : Prop :=
  ∀ (s : State) (i : Instr), decode s.cmd = .ok i → step s = exec i s

/-- 30_encoding.md R81: an `op` of 24 to 31 is answered with cause 1 whatever the other fields hold. -/
def Obligations.ReservedOperationIsCauseOne : Prop :=
  ∀ s : State, 24 ≤ cmdField s.cmd 0 5 → ∃ t, step s = .next t ∧ IllegalNext s t 1

/-- 30_encoding.md R72, 60_exceptions.md R212 on priority: a set reserved bit is answered with cause 2, but
for an undefined operation, whose cause 1 comes first. -/
def Obligations.ReservedBitsAreCauseTwo : Prop :=
  ∀ s : State, cmdField s.cmd 21 11 ≠ 0 →
    ∃ t, step s = .next t ∧ IllegalNext s t (if 24 ≤ cmdField s.cmd 0 5 then 1 else 2)

/-! ### The whole machine -/

/-- 60_exceptions.md R218: every request whatever is answered, with the lowest cause that applies by the
table of R218 on the raw fields, 0 if none does; and nothing but the response (and the model's own count of
free draws) changes. The bound on F is the configured `F_MAX` (92_eei_decisions.md D7); with its default it is
R218's H − 1. -/
def Obligations.EveryRequestGetsTheCauseOfTheLegalityTable : Prop :=
  ∀ s : State,
    (requestCause (fMaxAt s.cfg) s.cmd s.a = 0 → ∃ v, step s = .next (legalNext s v)) ∧
    (requestCause (fMaxAt s.cfg) s.cmd s.a ≠ 0 →
      ∃ t, step s = .next t ∧ IllegalNext s t (requestCause (fMaxAt s.cfg) s.cmd s.a)) ∧
    (s.cfg.fMax = FMax.default →
      requestCause (fMaxAt s.cfg) s.cmd s.a = requestCause (fun X => X - 1) s.cmd s.a)

/-- 60_exceptions.md R212, 44_slog_codec.md R165, 10_state.md R25: a step keeps the invariant: what stands
at the response port is sound and the tables keep their side conditions. -/
def Obligations.EveryStepKeepsTheInvariant : Prop :=
  ∀ s t : State, s.Inv → step s = .next t → t.Inv

/-- The invariant holds after reset. -/
def Obligations.ResetHasTheInvariant : Prop := State.reset.Inv

/-- 10_state.md R27, R36: after reset the tables hold 89·i·(256−i) and 88·i·(256−i), with the bound, the
largest entries and the symmetry R27 names, the parameters stand at their defaults (00_scope.md R6), and there
is no response. -/
def Obligations.ResetLeavesTheDefaultTablesAndNoResponse : Prop :=
  State.reset.rsp = none ∧ State.reset.cfg.lutQ = 24 ∧ State.reset.cfg.slogdecNeg = .asWritten ∧
  (∀ w : Width, fMax State.reset.cfg w + 1 = w.bits) ∧
  (∀ i : Fin 256, State.reset.cfg.encLut[i] = 89 * i.val * (256 - i.val)) ∧
  (∀ i : Fin 256, State.reset.cfg.decLut[i] = 88 * i.val * (256 - i.val)) ∧
  (∀ i : Fin 256, State.reset.cfg.encLut[i] < 2 ^ 21 ∧ State.reset.cfg.decLut[i] < 2 ^ 21) ∧
  State.reset.cfg.encLut[128] = 0x164000 ∧ State.reset.cfg.decLut[128] = 0x160000 ∧
  (∀ i : Fin 256, State.reset.cfg.encLut[i] ≤ 0x164000 ∧ State.reset.cfg.decLut[i] ≤ 0x160000) ∧
  (∀ i j : Fin 256, i.val + j.val = 256 →
    State.reset.cfg.encLut[i] = State.reset.cfg.encLut[j] ∧
    State.reset.cfg.decLut[i] = State.reset.cfg.decLut[j])

/-- 10_state.md R25, R24, 60_exceptions.md R211: every step answers, and leaves the request ports, the two
tables and the rest of the configuration as they were. -/
def Obligations.NoStepWritesATable : Prop :=
  ∀ s : State, ∃ t y, step s = .next t ∧ t.rsp = some y ∧ t.cmd = s.cmd ∧ t.a = s.a ∧ t.cfg = s.cfg

/-- 20_memory.md R43: repeating a legal request gives the same response and changes nothing at all. That a
further step with nothing new presented is the same request again is the MODEL'S CHOICE (log entry 10). -/
def Obligations.RepeatingALegalRequestChangesNothing : Prop :=
  ∀ (s t : State) (y : Response), step s = .next t → t.rsp = some y → y.ill = false → step t = .next t

/-- 00_scope.md R11, 10_state.md R24, 30_encoding.md R74: two states with the same request word and
configuration, whose operands agree in the bits the operation reads, get the same response, whatever stood
at the response port and whatever was drawn before. -/
def Obligations.ResponseDependsOnSignificantRequestBitsOnly : Prop :=
  ∀ s s' : State, s.cmd = s'.cmd → s.cfg = s'.cfg →
    (∀ i, decode s.cmd = .ok i → s.a.toNat % 2 ^ operandBits i = s'.a.toNat % 2 ^ operandBits i) →
    ∃ t t' y y', step s = .next t ∧ step s' = .next t' ∧ t.rsp = some y ∧ t'.rsp = some y' ∧
      SameResponse y y'

/-- 30_encoding.md R75: the result of a legal request lies in the operation's result bits, every bit above
them is zero; a count lies in `r[6:0]`. -/
def Obligations.ResultBitsAboveTheWidthAreZero : Prop :=
  ∀ (i : Instr) (s t : State) (y : Response), exec i s = .next t → t.rsp = some y → y.ill = false →
    y.r.toNat < 2 ^ resultBits i

/-- 10_state.md R31, R32, 20_memory.md R46: any script of requests is answered, one response per request in
order, and each response is the one its request gets alone from a machine just reset with that configuration. -/
def Obligations.ScriptResponsesComeInOrderAndIndependently : Prop :=
  ∀ (qs : List Request) (s : State), ∃ ys t, serve qs s = some (ys, t) ∧ t.cfg = s.cfg ∧
    List.Forall₂ (fun q y => ∃ y₀ t₀, serveOne q { State.reset with cfg := s.cfg } = some (y₀, t₀) ∧
      SameResponse y y₀) qs ys

/-! ### Bit primitives -/

/-- 41_bit_primitives.md R100: CLZ gives the n for which v lies in [2^(W−1−n), 2^(W−n)), and cause 4 at 0. -/
def Obligations.ClzCountsLeadingZeros : Prop :=
  ∀ (w : Width) (s : State),
    decode (requestWord 0 (widthCode w) 0 0 0) = .ok (.clz w) ∧
    (s.a.toNat % 2 ^ w.bits ≠ 0 → ∃ n, exec (.clz w) s = .next (legalNext s n) ∧ n < w.bits ∧
      2 ^ (w.bits - 1 - n) ≤ s.a.toNat % 2 ^ w.bits ∧ s.a.toNat % 2 ^ w.bits < 2 ^ (w.bits - n)) ∧
    (s.a.toNat % 2 ^ w.bits = 0 → ∃ t, exec (.clz w) s = .next t ∧ IllegalNext s t 4)

/-- 41_bit_primitives.md R101: FLS gives 0 at 0 and else the n for which v lies in [2^(n−1), 2^n). -/
def Obligations.FlsFindsTheLastSetBit : Prop :=
  ∀ (w : Width) (s : State),
    decode (requestWord 1 (widthCode w) 0 0 0) = .ok (.fls w) ∧
    (s.a.toNat % 2 ^ w.bits = 0 → exec (.fls w) s = .next (legalNext s 0)) ∧
    (s.a.toNat % 2 ^ w.bits ≠ 0 → ∃ n, exec (.fls w) s = .next (legalNext s n) ∧ 1 ≤ n ∧ n ≤ w.bits ∧
      2 ^ (n - 1) ≤ s.a.toNat % 2 ^ w.bits ∧ s.a.toNat % 2 ^ w.bits < 2 ^ n)

/-- 41_bit_primitives.md R102: LOG2F gives the n for which v lies in [2^n, 2^(n+1)), and cause 4 at 0. -/
def Obligations.Log2fIsTheFloorOfTheLogarithm : Prop :=
  ∀ (w : Width) (s : State),
    decode (requestWord 2 (widthCode w) 0 0 0) = .ok (.log2f w) ∧
    (s.a.toNat % 2 ^ w.bits ≠ 0 → ∃ n, exec (.log2f w) s = .next (legalNext s n) ∧ n < w.bits ∧
      2 ^ n ≤ s.a.toNat % 2 ^ w.bits ∧ s.a.toNat % 2 ^ w.bits < 2 ^ (n + 1)) ∧
    (s.a.toNat % 2 ^ w.bits = 0 → ∃ t, exec (.log2f w) s = .next t ∧ IllegalNext s t 4)

/-- 41_bit_primitives.md R103: BMASK sets bits [h:0] and no other, and is cause 3 for h ≥ W. -/
def Obligations.BmaskSetsTheLowBits : Prop :=
  ∀ (w : Width) (hi : Param) (s : State),
    decode (requestWord 3 (widthCode w) 0 hi.toNat 0) = .ok (.bmask w hi) ∧
    (hi.toNat ≤ w.bits - 1 → ∃ x, exec (.bmask w hi) s = .next (legalNext s x) ∧
      ∀ k, x.testBit k = decide (k ≤ hi.toNat)) ∧
    (w.bits ≤ hi.toNat → ∃ t, exec (.bmask w hi) s = .next t ∧ IllegalNext s t 3)

/-- 41_bit_primitives.md R104 to R107: the four constants, as patterns not sign-extended on the bus. -/
def Obligations.MinAndMaxConstants : Prop :=
  ∀ (w : Width) (s : State),
    decode (requestWord 4 (widthCode w) 0 0 0) = .ok (.umin w) ∧
    decode (requestWord 5 (widthCode w) 0 0 0) = .ok (.umax w) ∧
    decode (requestWord 6 (widthCode w) 0 0 0) = .ok (.smin w) ∧
    decode (requestWord 7 (widthCode w) 0 0 0) = .ok (.smax w) ∧
    exec (.umin w) s = .next (legalNext s 1) ∧
    exec (.umax w) s = .next (legalNext s (2 ^ w.bits - 1)) ∧
    exec (.smin w) s = .next (legalNext s (2 ^ (w.bits - 1))) ∧
    exec (.smax w) s = .next (legalNext s (2 ^ (w.bits - 1) - 1))

/-- 41_bit_primitives.md R108, R109: the budgets are L − k and L − 1 − k for the k with 2^k = H. -/
def Obligations.MantissaBudgets : Prop :=
  ∀ (h l : Width) (s : State),
    decode (requestWord 8 (widthCode h) (widthCode l) 0 0) = .ok (.pulmaxm h l) ∧
    decode (requestWord 9 (widthCode h) (widthCode l) 0 0) = .ok (.slogmaxm h l) ∧
    ∃ k x y, 2 ^ k = h.bits ∧ x + k = l.bits ∧ y + 1 + k = l.bits ∧
      exec (.pulmaxm h l) s = .next (legalNext s x) ∧
      exec (.slogmaxm h l) s = .next (legalNext s y)

/-- 41_bit_primitives.md R111: the laws between CLZ, FLS and LOG2F, every result within its count field, and
FLS monotone; each result is bounded, so it is the number on `r` itself. -/
def Obligations.BitPrimitiveLaws : Prop :=
  (∀ (w : Width) (s : State), s.a.toNat % 2 ^ w.bits ≠ 0 → ∃ c f g,
    exec (.clz w) s = .next (legalNext s c) ∧ exec (.fls w) s = .next (legalNext s f) ∧
    exec (.log2f w) s = .next (legalNext s g) ∧ c + f = w.bits ∧ g + 1 = f ∧ c < 2 ^ 7 ∧ f < 2 ^ 7 ∧
    2 ^ g ≤ s.a.toNat % 2 ^ w.bits ∧ s.a.toNat % 2 ^ w.bits < 2 ^ f) ∧
  (∀ (w : Width) (s s' : State), s.a.toNat % 2 ^ w.bits ≤ s'.a.toNat % 2 ^ w.bits → ∃ f f',
    exec (.fls w) s = .next (legalNext s f) ∧ exec (.fls w) s' = .next (legalNext s' f') ∧
    f ≤ w.bits ∧ f' ≤ w.bits ∧ f ≤ f')

/-! ### The bound on F -/

/-- 42_fixed_point.md R120, 44_slog_codec.md R160: with `F_MAX` at its default, each fixed-point shifter answers
exactly when L ≤ H and F ≤ H − 1, and each SLOG codec operation exactly when 1 ≤ M ≤ min(L − 1 − log₂ H, H − 1)
and F ≤ H − 1; every other request of them is cause 3. -/
def Obligations.LegalParametersAtTheDefaultFMax : Prop :=
  ∀ (h l : Width) (m f : Param) (s : State) (k : Nat), s.cfg.fMax = FMax.default → 2 ^ k = h.bits →
    (∀ i ∈ [Instr.tofpu h l f, .tofps h l f, .fromfpu h l f, .fromfps h l f],
      (l.bits ≤ h.bits ∧ f.toNat ≤ h.bits - 1 → ∃ v, exec i s = .next (legalNext s v)) ∧
      (¬ (l.bits ≤ h.bits ∧ f.toNat ≤ h.bits - 1) → ∃ t, exec i s = .next t ∧ IllegalNext s t 3)) ∧
    (∀ i ∈ [Instr.slogenc h l m f, .slogdec h l m f, .slogencc h l m f, .slogdecc h l m f],
      (1 ≤ m.toNat ∧ m.toNat ≤ min (l.bits - 1 - k) (h.bits - 1) ∧ f.toNat ≤ h.bits - 1 →
        ∃ v, exec i s = .next (legalNext s v)) ∧
      (¬ (1 ≤ m.toNat ∧ m.toNat ≤ min (l.bits - 1 - k) (h.bits - 1) ∧ f.toNat ≤ h.bits - 1) →
        ∃ t, exec i s = .next t ∧ IllegalNext s t 3))

/-! ### Fixed-point shifters: each is the bit-vector datapath of its width -/

/-- 42_fixed_point.md R121 with R120: TOFPU zero-extends L bits to H, shifts left in H bits, zero-fills the
bus; it is cause 3 outside R120. -/
def Obligations.TofpuIsTheShiftInHBits : Prop :=
  ∀ (h l : Width) (f : Param) (s : State),
    decode (requestWord 10 (widthCode h) (widthCode l) 0 f.toNat) = .ok (.tofpu h l f) ∧
    (FixedParams s.cfg h l f.toNat → exec (.tofpu h l f) s =
      .next (legalNext s (((s.a.setWidth l.bits).setWidth h.bits) <<< f.toNat).toNat)) ∧
    (¬ FixedParams s.cfg h l f.toNat → ∃ t, exec (.tofpu h l f) s = .next t ∧ IllegalNext s t 3)

/-- 42_fixed_point.md R122 with R120: TOFPS sign-extends L bits to H, shifts left in H bits, zero-fills the
bus; it is cause 3 outside R120. -/
def Obligations.TofpsIsTheSignedShiftInHBits : Prop :=
  ∀ (h l : Width) (f : Param) (s : State),
    decode (requestWord 11 (widthCode h) (widthCode l) 0 f.toNat) = .ok (.tofps h l f) ∧
    (FixedParams s.cfg h l f.toNat → exec (.tofps h l f) s =
      .next (legalNext s (((s.a.setWidth l.bits).signExtend h.bits) <<< f.toNat).toNat)) ∧
    (¬ FixedParams s.cfg h l f.toNat → ∃ t, exec (.tofps h l f) s = .next t ∧ IllegalNext s t 3)

/-- 42_fixed_point.md R123 with R120: FROMFPU shifts H bits right logically and keeps the low L bits; it is
cause 3 outside R120. -/
def Obligations.FromfpuIsTheLogicalShift : Prop :=
  ∀ (h l : Width) (f : Param) (s : State),
    decode (requestWord 12 (widthCode h) (widthCode l) 0 f.toNat) = .ok (.fromfpu h l f) ∧
    (FixedParams s.cfg h l f.toNat → exec (.fromfpu h l f) s =
      .next (legalNext s ((s.a.setWidth h.bits >>> f.toNat).setWidth l.bits).toNat)) ∧
    (¬ FixedParams s.cfg h l f.toNat → ∃ t, exec (.fromfpu h l f) s = .next t ∧ IllegalNext s t 3)

/-- 42_fixed_point.md R124 with R120: FROMFPS shifts H bits right arithmetically and keeps the low L bits; it
is cause 3 outside R120. -/
def Obligations.FromfpsIsTheArithmeticShift : Prop :=
  ∀ (h l : Width) (f : Param) (s : State),
    decode (requestWord 13 (widthCode h) (widthCode l) 0 f.toNat) = .ok (.fromfps h l f) ∧
    (FixedParams s.cfg h l f.toNat → exec (.fromfps h l f) s =
      .next (legalNext s (((s.a.setWidth h.bits).sshiftRight f.toNat).setWidth l.bits).toNat)) ∧
    (¬ FixedParams s.cfg h l f.toNat → ∃ t, exec (.fromfps h l f) s = .next t ∧ IllegalNext s t 3)

/-- 42_fixed_point.md R121, R122, R123, R124, corner cases: the H-bit results of TOFPU and TOFPS are exact
exactly on the format's domain, and there FROMFPU and FROMFPS give the value back; for F up to H − 1, the bound
of R120. -/
def Obligations.FixedPointRoundTripWhereExact : Prop :=
  ∀ (h l : Width) (f : Param) (s : State), FixedParams s.cfg h l f.toNat →
    f.toNat ≤ h.bits - 1 → ∃ x y,
    exec (.tofpu h l f) s = .next (legalNext s x) ∧ x < 2 ^ h.bits ∧
    (x = s.a.toNat % 2 ^ l.bits * 2 ^ f.toNat ↔ s.a.toNat % 2 ^ l.bits < 2 ^ (h.bits - f.toNat)) ∧
    (s.a.toNat % 2 ^ l.bits < 2 ^ (h.bits - f.toNat) → exec (.fromfpu h l f) (s.withOperand x) =
      .next (legalNext (s.withOperand x) (s.a.toNat % 2 ^ l.bits))) ∧
    exec (.tofps h l f) s = .next (legalNext s y) ∧ y < 2 ^ h.bits ∧
    (signedAt h.bits y = signedAt l.bits s.a.toNat * 2 ^ f.toNat ↔
      -(2 ^ (h.bits - 1 - f.toNat)) ≤ signedAt l.bits s.a.toNat ∧
        signedAt l.bits s.a.toNat < 2 ^ (h.bits - 1 - f.toNat)) ∧
    (-(2 ^ (h.bits - 1 - f.toNat)) ≤ signedAt l.bits s.a.toNat ∧
        signedAt l.bits s.a.toNat < 2 ^ (h.bits - 1 - f.toNat) →
      exec (.fromfps h l f) (s.withOperand y) =
        .next (legalNext (s.withOperand y) (s.a.toNat % 2 ^ l.bits)))

/-- 42_fixed_point.md R126, last sentence: with F = 0 and L = H all four return their operand. -/
def Obligations.FixedPointIdentityAtZeroFraction : Prop :=
  ∀ (h : Width) (s : State),
    exec (.tofpu h h 0) s = .next (legalNext s (s.a.toNat % 2 ^ h.bits)) ∧
    exec (.tofps h h 0) s = .next (legalNext s (s.a.toNat % 2 ^ h.bits)) ∧
    exec (.fromfpu h h 0) s = .next (legalNext s (s.a.toNat % 2 ^ h.bits)) ∧
    exec (.fromfps h h 0) s = .next (legalNext s (s.a.toNat % 2 ^ h.bits))

/-! ### PUL codec -/

/-- 43_pul_codec.md R140, R141, R142: PULENC gives 1 − v for v ≤ 1 and else ⌊log₂ v⌋ · 2^M + frac, a codeword
of at least 2^M that fits L bits; it is cause 3 outside R140. -/
def Obligations.PulencGivesExponentAndFraction : Prop :=
  ∀ (h l : Width) (m : Param) (s : State),
    decode (requestWord 14 (widthCode h) (widthCode l) m.toNat 0) = .ok (.pulenc h l m) ∧
    (PulParams h l m.toNat → s.a.toNat % 2 ^ h.bits ≤ 1 →
      exec (.pulenc h l m) s = .next (legalNext s (1 - s.a.toNat % 2 ^ h.bits))) ∧
    (PulParams h l m.toNat → 2 ≤ s.a.toNat % 2 ^ h.bits →
      ∃ x, exec (.pulenc h l m) s = .next (legalNext s x) ∧
        x = (s.a.toNat % 2 ^ h.bits).log2 * 2 ^ m.toNat + topFraction m.toNat (s.a.toNat % 2 ^ h.bits) ∧
        topFraction m.toNat (s.a.toNat % 2 ^ h.bits) < 2 ^ m.toNat ∧ 2 ^ m.toNat ≤ x ∧ x < 2 ^ l.bits) ∧
    (¬ PulParams h l m.toNat → ∃ t, exec (.pulenc h l m) s = .next t ∧ IllegalNext s t 3)

/-- 43_pul_codec.md R140, R143: PULDEC gives 0 for the sentinel 1, saturates for an exponent of H or more, and
else gives ⌊(1 + m/2^M) · 2^e⌋; it is cause 3 outside R140. -/
def Obligations.PuldecGivesTheScaledMantissa : Prop :=
  ∀ (h l : Width) (m : Param) (s : State),
    decode (requestWord 15 (widthCode h) (widthCode l) m.toNat 0) = .ok (.puldec h l m) ∧
    (PulParams h l m.toNat → s.a.toNat % 2 ^ l.bits = 1 →
      exec (.puldec h l m) s = .next (legalNext s 0)) ∧
    (PulParams h l m.toNat → ∀ e f, f < 2 ^ m.toNat → s.a.toNat % 2 ^ l.bits = e * 2 ^ m.toNat + f →
      s.a.toNat % 2 ^ l.bits ≠ 1 → h.bits ≤ e →
      exec (.puldec h l m) s = .next (legalNext s (2 ^ h.bits - 1))) ∧
    (PulParams h l m.toNat → ∀ e f, f < 2 ^ m.toNat → s.a.toNat % 2 ^ l.bits = e * 2 ^ m.toNat + f →
      s.a.toNat % 2 ^ l.bits ≠ 1 → e < h.bits →
      exec (.puldec h l m) s = .next (legalNext s (scaledUp m.toNat f e))) ∧
    (¬ PulParams h l m.toNat → ∃ t, exec (.puldec h l m) s = .next t ∧ IllegalNext s t 3)

/-- 43_pul_codec.md R144: decoding the PUL encoding of v gives v with its bits below the top M + 1 cleared,
0 for 0 and 1 for 1; so a power of two comes back exactly. -/
def Obligations.PulRoundTripKeepsTheTopBits : Prop :=
  ∀ (h l : Width) (m : Param) (s : State), PulParams h l m.toNat →
    (∃ x, exec (.pulenc h l m) s = .next (legalNext s x) ∧
      exec (.puldec h l m) (s.withOperand x) =
        .next (legalNext (s.withOperand x) (topBits m.toNat (s.a.toNat % 2 ^ h.bits)))) ∧
    (∀ k, k < h.bits → topBits m.toNat (2 ^ k) = 2 ^ k) ∧ topBits m.toNat 0 = 0

/-- 43_pul_codec.md R144 (P3): on integers of at least 1 PULENC is monotone, its L-bit words compared. -/
def Obligations.PulencIsMonotone : Prop :=
  ∀ (h l : Width) (m : Param) (s s' : State), PulParams h l m.toNat → 1 ≤ s.a.toNat % 2 ^ h.bits →
    s.a.toNat % 2 ^ h.bits ≤ s'.a.toNat % 2 ^ h.bits → ∃ x y,
    exec (.pulenc h l m) s = .next (legalNext s x) ∧ exec (.pulenc h l m) s' = .next (legalNext s' y) ∧
    x < 2 ^ l.bits ∧ y < 2 ^ l.bits ∧ x ≤ y

/-! ### SLOG codec -/

/-- 44_slog_codec.md R160, R161, R162: SLOGENC gives the sentinel for 0 and else the L-bit pattern of
(⌊log₂ v⌋ − F) · 2^M + frac, which for F up to H − 1, the bound of R160, lies strictly inside the signed range,
so it is never the sentinel; it is cause 3 outside R160. -/
def Obligations.SlogencGivesExponentAndFraction : Prop :=
  ∀ (h l : Width) (m f : Param) (s : State),
    decode (requestWord 16 (widthCode h) (widthCode l) m.toNat f.toNat) = .ok (.slogenc h l m f) ∧
    (SlogParams s.cfg h l m.toNat f.toNat → s.a.toNat % 2 ^ h.bits = 0 →
      exec (.slogenc h l m f) s = .next (legalNext s (2 ^ (l.bits - 1)))) ∧
    (SlogParams s.cfg h l m.toNat f.toNat → s.a.toNat % 2 ^ h.bits ≠ 0 →
      ∃ (x : Nat) (n : Int), exec (.slogenc h l m f) s = .next (legalNext s x) ∧ x < 2 ^ l.bits ∧
        n = ((s.a.toNat % 2 ^ h.bits).log2 - (f.toNat : Int)) * 2 ^ m.toNat +
          topFraction m.toNat (s.a.toNat % 2 ^ h.bits) ∧
        topFraction m.toNat (s.a.toNat % 2 ^ h.bits) < 2 ^ m.toNat ∧ (x : Int) = n % 2 ^ l.bits ∧
        (f.toNat ≤ h.bits - 1 → signedAt l.bits x = n ∧ x ≠ 2 ^ (l.bits - 1))) ∧
    (¬ SlogParams s.cfg h l m.toNat f.toNat → ∃ t, exec (.slogenc h l m f) s = .next t ∧ IllegalNext s t 3)

/-- 44_slog_codec.md R160, R163: SLOGDEC gives 0 for the sentinel and else, from the parts of the codeword under
the configured reading, 0 below, the saturated value above, and ⌊(1 + f/2^M) · 2^(E+F')⌋ between; it is
cause 3 outside R160. -/
def Obligations.SlogdecGivesTheScaledMantissa : Prop :=
  ∀ (h l : Width) (m f : Param) (s : State),
    decode (requestWord 17 (widthCode h) (widthCode l) m.toNat f.toNat) = .ok (.slogdec h l m f) ∧
    (SlogParams s.cfg h l m.toNat f.toNat → s.a.toNat % 2 ^ l.bits = 2 ^ (l.bits - 1) →
      exec (.slogdec h l m f) s = .next (legalNext s 0)) ∧
    (SlogParams s.cfg h l m.toNat f.toNat → s.a.toNat % 2 ^ l.bits ≠ 2 ^ (l.bits - 1) →
      ∃ E x, PartsOf s.cfg.slogdecNeg m.toNat (signedAt l.bits s.a.toNat) E x ∧
        exec (.slogdec h l m f) s =
          .next (legalNext s (decodedValue h.bits m.toNat x (E + f.toNat)))) ∧
    (¬ SlogParams s.cfg h l m.toNat f.toNat → ∃ t, exec (.slogdec h l m f) s = .next t ∧ IllegalNext s t 3)

/-- 44_slog_codec.md R160, R166: SLOGENCC gives the sentinel for 0 and else SLOGENC's word with the correction
added to the fraction and the sum clamped at 2^M − 1; for F up to H − 1, the bound of R160, never the sentinel
for a non-zero operand; cause 3 outside R160. -/
def Obligations.SlogenccAddsTheClampedCorrection : Prop :=
  ∀ (h l : Width) (m f : Param) (s : State),
    decode (requestWord 18 (widthCode h) (widthCode l) m.toNat f.toNat) = .ok (.slogencc h l m f) ∧
    (SlogParams s.cfg h l m.toNat f.toNat → s.a.toNat % 2 ^ h.bits = 0 →
      exec (.slogencc h l m f) s = .next (legalNext s (2 ^ (l.bits - 1)))) ∧
    (SlogParams s.cfg h l m.toNat f.toNat → s.a.toNat % 2 ^ h.bits ≠ 0 →
      ∃ (x g : Nat) (n : Int), exec (.slogencc h l m f) s = .next (legalNext s x) ∧ x < 2 ^ l.bits ∧
        g = topFraction m.toNat (s.a.toNat % 2 ^ h.bits) ∧
        n = ((s.a.toNat % 2 ^ h.bits).log2 - (f.toNat : Int)) * 2 ^ m.toNat +
          min (g + correction s.cfg.encLut s.cfg.lutQ g m.toNat) (2 ^ m.toNat - 1) ∧
        (x : Int) = n % 2 ^ l.bits ∧
        (f.toNat ≤ h.bits - 1 → signedAt l.bits x = n ∧ x ≠ 2 ^ (l.bits - 1))) ∧
    (¬ SlogParams s.cfg h l m.toNat f.toNat → ∃ t, exec (.slogencc h l m f) s = .next t ∧ IllegalNext s t 3)

/-- 44_slog_codec.md R160, R167: SLOGDECC is SLOGDEC with the correction taken from the fraction before the
reconstruction, underflow and overflow decided on the uncorrected exponent; for tables that meet R165's
condition that the correction never exceeds the fraction; cause 3 outside R160. -/
def Obligations.SlogdeccSubtractsTheCorrection : Prop :=
  ∀ (h l : Width) (m f : Param) (s : State),
    decode (requestWord 19 (widthCode h) (widthCode l) m.toNat f.toNat) = .ok (.slogdecc h l m f) ∧
    (SlogParams s.cfg h l m.toNat f.toNat → s.a.toNat % 2 ^ l.bits = 2 ^ (l.bits - 1) →
      exec (.slogdecc h l m f) s = .next (legalNext s 0)) ∧
    (SlogParams s.cfg h l m.toNat f.toNat → s.a.toNat % 2 ^ l.bits ≠ 2 ^ (l.bits - 1) →
      ∀ E x, PartsOf s.cfg.slogdecNeg m.toNat (signedAt l.bits s.a.toNat) E x →
      correction s.cfg.decLut s.cfg.lutQ x m.toNat ≤ x →
      ∃ y, y + correction s.cfg.decLut s.cfg.lutQ x m.toNat = x ∧
        exec (.slogdecc h l m f) s =
          .next (legalNext s (decodedValue h.bits m.toNat y (E + f.toNat)))) ∧
    (¬ SlogParams s.cfg h l m.toNat f.toNat → ∃ t, exec (.slogdecc h l m f) s = .next t ∧ IllegalNext s t 3)

/-- 44_slog_codec.md R165 leaves tables whose correction exceeds the fraction to 'require ... or clamp': the
MODEL'S CHOICE (log entry 6) is to clamp the corrected fraction at 0, so SLOGDECC runs with any table. -/
def Obligations.SlogdeccClampsAnOversizedCorrection : Prop :=
  ∀ (h l : Width) (m f : Param) (s : State), SlogParams s.cfg h l m.toNat f.toNat →
    s.a.toNat % 2 ^ l.bits ≠ 2 ^ (l.bits - 1) →
    ∀ E x, PartsOf s.cfg.slogdecNeg m.toNat (signedAt l.bits s.a.toNat) E x →
      x < correction s.cfg.decLut s.cfg.lutQ x m.toNat →
      exec (.slogdecc h l m f) s = .next (legalNext s (decodedValue h.bits m.toNat 0 (E + f.toNat)))

/-- 44_slog_codec.md R165: the index is below 256, the corrections are the scaled entries, and with the default
configuration they are bounded as R165 says, 0 at 0, and the decode correction never exceeds the fraction. -/
def Obligations.CorrectionsAreTheScaledTableEntries : Prop :=
  (∀ (c : Config) (f M : Nat), f < 2 ^ M → idx8 f M < 256 ∧
    ecorr c f M = correction c.encLut c.lutQ f M ∧ dcorr c f M = correction c.decLut c.lutQ f M) ∧
  (∀ f M : Nat, f < 2 ^ M → 1024 * ecorr Config.default f M ≤ 89 * 2 ^ M ∧
    1024 * dcorr Config.default f M ≤ 88 * 2 ^ M ∧ dcorr Config.default f M ≤ f) ∧
  (∀ M : Nat, ecorr Config.default 0 M = 0 ∧ dcorr Config.default 0 M = 0)

/-- 44_slog_codec.md R169 (I2, P1): for every legal (H, L, M), F' = F in [0, H − 1] and k below H,
decoding the encoding of 2^k gives 2^k, uncorrected, and corrected under tables whose entry 0 is 0; under
either reading. -/
def Obligations.PowersOfTwoSurviveTheSlogRoundTrip : Prop :=
  ∀ (h l : Width) (m f : Param) (s : State) (k : Nat), SlogParams s.cfg h l m.toNat f.toNat →
    f.toNat ≤ h.bits - 1 → k < h.bits → s.a.toNat % 2 ^ h.bits = 2 ^ k →
    (∃ x, exec (.slogenc h l m f) s = .next (legalNext s x) ∧
      exec (.slogdec h l m f) (s.withOperand x) = .next (legalNext (s.withOperand x) (2 ^ k))) ∧
    (s.cfg.encLut[0] = 0 → s.cfg.decLut[0] = 0 →
      ∃ x, exec (.slogencc h l m f) s = .next (legalNext s x) ∧
        exec (.slogdecc h l m f) (s.withOperand x) = .next (legalNext (s.withOperand x) (2 ^ k)))

/-- 44_slog_codec.md R169, 90_conflicts.md C3: decoding the uncorrected encoding of v with F' = F ≤ H − 1 gives
v with its bits below the top M + 1 cleared: for a value of at least 1.0 under either reading, and for every
value under FLOOR, the reading that inverts the encoder. -/
def Obligations.SlogRoundTripKeepsTheTopBits : Prop :=
  ∀ (h l : Width) (m f : Param) (s : State), SlogParams s.cfg h l m.toNat f.toNat → f.toNat ≤ h.bits - 1 →
    (2 ^ f.toNat ≤ s.a.toNat % 2 ^ h.bits ∨ s.cfg.slogdecNeg = .floor) →
    ∃ x, exec (.slogenc h l m f) s = .next (legalNext s x) ∧
      exec (.slogdec h l m f) (s.withOperand x) =
        .next (legalNext (s.withOperand x) (topBits m.toNat (s.a.toNat % 2 ^ h.bits)))

/-- 44_slog_codec.md R169 (I4, P3), 90_conflicts.md C5: on non-zero operands, for F up to H − 1 (the bound of
R160), SLOGENC is monotone in the signed order of codewords. -/
def Obligations.SlogencIsMonotone : Prop :=
  ∀ (h l : Width) (m f : Param) (s s' : State), SlogParams s.cfg h l m.toNat f.toNat →
    s'.cfg.fMax = s.cfg.fMax → f.toNat ≤ h.bits - 1 →
    s.a.toNat % 2 ^ h.bits ≠ 0 → s.a.toNat % 2 ^ h.bits ≤ s'.a.toNat % 2 ^ h.bits → ∃ x y,
    exec (.slogenc h l m f) s = .next (legalNext s x) ∧ exec (.slogenc h l m f) s' = .next (legalNext s' y) ∧
    signedAt l.bits x ≤ signedAt l.bits y

/-- 93_implementation_defined.md U12, 90_conflicts.md C4: SLOGENCC is monotone on operands of equal exponent
whose fractions fall in one bucket of the table, for F up to H − 1 (the bound of R160). -/
def Obligations.SlogenccIsMonotoneWithinABucket : Prop :=
  ∀ (h l : Width) (m f : Param) (s s' : State), SlogParams s.cfg h l m.toNat f.toNat →
    f.toNat ≤ h.bits - 1 →
    s.a.toNat % 2 ^ h.bits ≠ 0 → s.a.toNat % 2 ^ h.bits ≤ s'.a.toNat % 2 ^ h.bits →
    (s.a.toNat % 2 ^ h.bits).log2 = (s'.a.toNat % 2 ^ h.bits).log2 →
    idx8 (topFraction m.toNat (s.a.toNat % 2 ^ h.bits)) m.toNat =
      idx8 (topFraction m.toNat (s'.a.toNat % 2 ^ h.bits)) m.toNat →
    s.cfg = s'.cfg → ∃ x y,
    exec (.slogencc h l m f) s = .next (legalNext s x) ∧
    exec (.slogencc h l m f) s' = .next (legalNext s' y) ∧ signedAt l.bits x ≤ signedAt l.bits y

/-- 44_slog_codec.md R162, last sentence: for F = 0 and v ≥ 1 the SLOG codeword is the PUL codeword of the same
v, H, L and M. -/
def Obligations.SlogWordOfAnIntegerIsItsPulWord : Prop :=
  ∀ (h l : Width) (m : Param) (s : State), SlogParams s.cfg h l m.toNat 0 → 1 ≤ s.a.toNat % 2 ^ h.bits →
    ∃ x, exec (.slogenc h l m 0) s = .next (legalNext s x) ∧ exec (.pulenc h l m) s = .next (legalNext s x)

/-- 93_implementation_defined.md U6, 44_slog_codec.md R163: the two readings of negative codewords give one
result on a non-negative codeword, and on one whose low M bits are zero. -/
def Obligations.SlogdecReadingsAgreeOnNonNegativeAndZeroMantissa : Prop :=
  ∀ (h l : Width) (m f : Param) (s : State), SlogParams s.cfg h l m.toNat f.toNat →
    (0 ≤ signedAt l.bits s.a.toNat ∨ s.a.toNat % 2 ^ m.toNat = 0) →
    ∃ v : Nat, ∀ neg : SlogdecNeg,
      exec (.slogdec h l m f) { s with cfg := { s.cfg with slogdecNeg := neg } } =
        .next (legalNext { s with cfg := { s.cfg with slogdecNeg := neg } } v)

/-! ### Transcoders -/

/-- 45_transcoders.md R190, R191: PUL2PUL keeps the sentinel 1 and else realigns and keeps the low L_out bits;
cause 3 outside R190. -/
def Obligations.Pul2pulRealigns : Prop :=
  ∀ (li lo : Width) (mi mo : Param) (s : State),
    decode (requestWord 20 (widthCode li) (widthCode lo) mi.toNat mo.toNat) = .ok (.pul2pul li lo mi mo) ∧
    (PulSide li mi.toNat ∧ PulSide lo mo.toNat → s.a.toNat % 2 ^ li.bits = 1 →
      exec (.pul2pul li lo mi mo) s = .next (legalNext s 1)) ∧
    (PulSide li mi.toNat ∧ PulSide lo mo.toNat → s.a.toNat % 2 ^ li.bits ≠ 1 →
      exec (.pul2pul li lo mi mo) s = .next (legalNext s
        (realigned (s.a.toNat % 2 ^ li.bits : Nat) mi.toNat mo.toNat % 2 ^ lo.bits).toNat)) ∧
    (¬ (PulSide li mi.toNat ∧ PulSide lo mo.toNat) →
      ∃ t, exec (.pul2pul li lo mi mo) s = .next t ∧ IllegalNext s t 3)

/-- 45_transcoders.md R190, R192: SLOG2SLOG maps sentinel to sentinel and else realigns the signed codeword with
floor and keeps the low L_out bits; cause 3 outside R190. -/
def Obligations.Slog2slogRealigns : Prop :=
  ∀ (li lo : Width) (mi mo : Param) (s : State),
    decode (requestWord 21 (widthCode li) (widthCode lo) mi.toNat mo.toNat) = .ok (.slog2slog li lo mi mo) ∧
    (SlogSide li mi.toNat ∧ SlogSide lo mo.toNat → s.a.toNat % 2 ^ li.bits = 2 ^ (li.bits - 1) →
      exec (.slog2slog li lo mi mo) s = .next (legalNext s (2 ^ (lo.bits - 1)))) ∧
    (SlogSide li mi.toNat ∧ SlogSide lo mo.toNat → s.a.toNat % 2 ^ li.bits ≠ 2 ^ (li.bits - 1) →
      exec (.slog2slog li lo mi mo) s = .next (legalNext s
        (realigned (signedAt li.bits s.a.toNat) mi.toNat mo.toNat % 2 ^ lo.bits).toNat)) ∧
    (¬ (SlogSide li mi.toNat ∧ SlogSide lo mo.toNat) →
      ∃ t, exec (.slog2slog li lo mi mo) s = .next t ∧ IllegalNext s t 3)

/-- 45_transcoders.md R190, R193: PUL2SLOG maps PUL-zero to SLOG-zero and else realigns and keeps the low L_out
bits; cause 3 outside R190. -/
def Obligations.Pul2slogRealigns : Prop :=
  ∀ (li lo : Width) (mi mo : Param) (s : State),
    decode (requestWord 22 (widthCode li) (widthCode lo) mi.toNat mo.toNat) = .ok (.pul2slog li lo mi mo) ∧
    (PulSide li mi.toNat ∧ SlogSide lo mo.toNat → s.a.toNat % 2 ^ li.bits = 1 →
      exec (.pul2slog li lo mi mo) s = .next (legalNext s (2 ^ (lo.bits - 1)))) ∧
    (PulSide li mi.toNat ∧ SlogSide lo mo.toNat → s.a.toNat % 2 ^ li.bits ≠ 1 →
      exec (.pul2slog li lo mi mo) s = .next (legalNext s
        (realigned (s.a.toNat % 2 ^ li.bits : Nat) mi.toNat mo.toNat % 2 ^ lo.bits).toNat)) ∧
    (¬ (PulSide li mi.toNat ∧ SlogSide lo mo.toNat) →
      ∃ t, exec (.pul2slog li lo mi mo) s = .next t ∧ IllegalNext s t 3)

/-- 45_transcoders.md R190, R194: SLOG2PUL maps every negative codeword, the sentinel among them, to PUL-zero and
else realigns and keeps the low L_out bits; cause 3 outside R190. -/
def Obligations.Slog2pulRealigns : Prop :=
  ∀ (li lo : Width) (mi mo : Param) (s : State),
    decode (requestWord 23 (widthCode li) (widthCode lo) mi.toNat mo.toNat) = .ok (.slog2pul li lo mi mo) ∧
    (SlogSide li mi.toNat ∧ PulSide lo mo.toNat → signedAt li.bits s.a.toNat < 0 →
      exec (.slog2pul li lo mi mo) s = .next (legalNext s 1)) ∧
    (SlogSide li mi.toNat ∧ PulSide lo mo.toNat → 0 ≤ signedAt li.bits s.a.toNat →
      exec (.slog2pul li lo mi mo) s = .next (legalNext s
        (realigned (signedAt li.bits s.a.toNat) mi.toNat mo.toNat % 2 ^ lo.bits).toNat)) ∧
    (¬ (SlogSide li mi.toNat ∧ PulSide lo mo.toNat) →
      ∃ t, exec (.slog2pul li lo mi mo) s = .next t ∧ IllegalNext s t 3)

/-- 45_transcoders.md R195: where the realigned value fits the output format, the output read in that format is
it, and for M_out ≥ M_in it stands for exactly the value the input stood for. -/
def Obligations.TranscodeIsExactWhereItFits : Prop :=
  (∀ (li lo : Width) (mi mo : Param) (s : State) (y : Int),
    PulSide li mi.toNat → PulSide lo mo.toNat → s.a.toNat % 2 ^ li.bits ≠ 1 →
    y = realigned (s.a.toNat % 2 ^ li.bits : Nat) mi.toNat mo.toNat → 0 ≤ y → y < 2 ^ lo.bits →
    ∃ z, exec (.pul2pul li lo mi mo) s = .next (legalNext s z) ∧ (z : Int) = y ∧
      (mi.toNat ≤ mo.toNat → (z : Int) * 2 ^ mi.toNat = (s.a.toNat % 2 ^ li.bits : Nat) * 2 ^ mo.toNat)) ∧
  (∀ (li lo : Width) (mi mo : Param) (s : State) (y : Int),
    SlogSide li mi.toNat → SlogSide lo mo.toNat → s.a.toNat % 2 ^ li.bits ≠ 2 ^ (li.bits - 1) →
    y = realigned (signedAt li.bits s.a.toNat) mi.toNat mo.toNat →
    -(2 ^ (lo.bits - 1)) < y → y < 2 ^ (lo.bits - 1) →
    ∃ z, exec (.slog2slog li lo mi mo) s = .next (legalNext s z) ∧ signedAt lo.bits z = y ∧
      (mi.toNat ≤ mo.toNat →
        signedAt lo.bits z * 2 ^ mi.toNat = signedAt li.bits s.a.toNat * 2 ^ mo.toNat)) ∧
  (∀ (li lo : Width) (mi mo : Param) (s : State) (y : Int),
    PulSide li mi.toNat → SlogSide lo mo.toNat → s.a.toNat % 2 ^ li.bits ≠ 1 →
    y = realigned (s.a.toNat % 2 ^ li.bits : Nat) mi.toNat mo.toNat →
    -(2 ^ (lo.bits - 1)) < y → y < 2 ^ (lo.bits - 1) →
    ∃ z, exec (.pul2slog li lo mi mo) s = .next (legalNext s z) ∧ signedAt lo.bits z = y ∧
      (mi.toNat ≤ mo.toNat →
        signedAt lo.bits z * 2 ^ mi.toNat = (s.a.toNat % 2 ^ li.bits : Nat) * 2 ^ mo.toNat)) ∧
  (∀ (li lo : Width) (mi mo : Param) (s : State) (y : Int),
    SlogSide li mi.toNat → PulSide lo mo.toNat → 0 ≤ signedAt li.bits s.a.toNat →
    y = realigned (signedAt li.bits s.a.toNat) mi.toNat mo.toNat → 0 ≤ y → y < 2 ^ lo.bits →
    ∃ z, exec (.slog2pul li lo mi mo) s = .next (legalNext s z) ∧ (z : Int) = y ∧
      (mi.toNat ≤ mo.toNat → (z : Int) * 2 ^ mi.toNat = signedAt li.bits s.a.toNat * 2 ^ mo.toNat))

/-- 45_transcoders.md R196: every transcoder maps the input format's zero sentinel to the output format's, for
all legal widths and budgets. -/
def Obligations.TranscodersPreserveTheZeroSentinels : Prop :=
  ∀ (li lo : Width) (mi mo : Param) (s : State),
    (PulSide li mi.toNat → PulSide lo mo.toNat → s.a.toNat % 2 ^ li.bits = 1 →
      exec (.pul2pul li lo mi mo) s = .next (legalNext s 1)) ∧
    (SlogSide li mi.toNat → SlogSide lo mo.toNat → s.a.toNat % 2 ^ li.bits = 2 ^ (li.bits - 1) →
      exec (.slog2slog li lo mi mo) s = .next (legalNext s (2 ^ (lo.bits - 1)))) ∧
    (PulSide li mi.toNat → SlogSide lo mo.toNat → s.a.toNat % 2 ^ li.bits = 1 →
      exec (.pul2slog li lo mi mo) s = .next (legalNext s (2 ^ (lo.bits - 1)))) ∧
    (SlogSide li mi.toNat → PulSide lo mo.toNat → s.a.toNat % 2 ^ li.bits = 2 ^ (li.bits - 1) →
      exec (.slog2pul li lo mi mo) s = .next (legalNext s 1))

/-- 45_transcoders.md R191, text of the family: narrowing the PUL codeword of v is the PUL codeword of v with the
smaller budget, sentinels included. -/
def Obligations.Pul2pulOfAnEncodingIsTheNarrowerEncoding : Prop :=
  ∀ (h li lo : Width) (mi mo : Param) (s : State), PulParams h li mi.toNat → PulParams h lo mo.toNat →
    mo.toNat ≤ mi.toNat → ∃ x y, exec (.pulenc h li mi) s = .next (legalNext s x) ∧
      exec (.pul2pul li lo mi mo) (s.withOperand x) = .next (legalNext (s.withOperand x) y) ∧
      exec (.pulenc h lo mo) s = .next (legalNext s y)

/-- 45_transcoders.md R192, corner cases: SLOG2SLOG of a canonical codeword, negative ones included, is the
codeword the encoder makes with the smaller budget, for F up to H − 1 (the bound of R160). -/
def Obligations.Slog2slogOfAnEncodingIsTheNarrowerEncoding : Prop :=
  ∀ (h li lo : Width) (mi mo f : Param) (s : State), SlogParams s.cfg h li mi.toNat f.toNat →
    SlogParams s.cfg h lo mo.toNat f.toNat → f.toNat ≤ h.bits - 1 → mo.toNat ≤ mi.toNat →
    ∃ x y, exec (.slogenc h li mi f) s = .next (legalNext s x) ∧
      exec (.slog2slog li lo mi mo) (s.withOperand x) = .next (legalNext (s.withOperand x) y) ∧
      exec (.slogenc h lo mo f) s = .next (legalNext s y)

/-- 45_transcoders.md R193, R194, 44_slog_codec.md R162: between the formats, PUL2SLOG of PULENC is SLOGENC with
F = 0, and SLOG2PUL of SLOGENC with F = 0 is PULENC, for budgets that do not grow. -/
def Obligations.PulAndSlogEncodingsTranscodeToEachOther : Prop :=
  ∀ (h li lo : Width) (mi mo : Param) (s : State), mo.toNat ≤ mi.toNat →
    (PulParams h li mi.toNat → SlogParams s.cfg h lo mo.toNat 0 →
      ∃ x y, exec (.pulenc h li mi) s = .next (legalNext s x) ∧
        exec (.pul2slog li lo mi mo) (s.withOperand x) = .next (legalNext (s.withOperand x) y) ∧
        exec (.slogenc h lo mo 0) s = .next (legalNext s y)) ∧
    (SlogParams s.cfg h li mi.toNat 0 → PulParams h lo mo.toNat →
      ∃ x y, exec (.slogenc h li mi 0) s = .next (legalNext s x) ∧
        exec (.slog2pul li lo mi mo) (s.withOperand x) = .next (legalNext (s.withOperand x) y) ∧
        exec (.pulenc h lo mo) s = .next (legalNext s y))

/-! ### In-band conditions -/

/-- 60_exceptions.md R213, R214, R217: encoding zero gives the format's sentinel, a decoder whose exponent
reaches H saturates, and a negative SLOG word transcodes to PUL-zero; all with `ill` = 0. -/
def Obligations.InBandConditionsAreResults : Prop :=
  (∀ (h l : Width) (m f : Param) (s : State), s.a.toNat % 2 ^ h.bits = 0 →
    (PulParams h l m.toNat → exec (.pulenc h l m) s = .next (legalNext s 1)) ∧
    (SlogParams s.cfg h l m.toNat f.toNat →
      exec (.slogenc h l m f) s = .next (legalNext s (2 ^ (l.bits - 1))) ∧
      exec (.slogencc h l m f) s = .next (legalNext s (2 ^ (l.bits - 1))))) ∧
  (∀ (h l : Width) (m : Param) (s : State), PulParams h l m.toNat → s.a.toNat % 2 ^ l.bits ≠ 1 →
    h.bits * 2 ^ m.toNat ≤ s.a.toNat % 2 ^ l.bits →
    exec (.puldec h l m) s = .next (legalNext s (2 ^ h.bits - 1))) ∧
  (∀ (h l : Width) (m f : Param) (s : State) (E : Int) (x : Nat), SlogParams s.cfg h l m.toNat f.toNat →
    s.a.toNat % 2 ^ l.bits ≠ 2 ^ (l.bits - 1) →
    PartsOf s.cfg.slogdecNeg m.toNat (signedAt l.bits s.a.toNat) E x → (h.bits : Int) ≤ E + f.toNat →
    exec (.slogdec h l m f) s = .next (legalNext s (2 ^ h.bits - 1)) ∧
    exec (.slogdecc h l m f) s = .next (legalNext s (2 ^ h.bits - 1))) ∧
  (∀ (li lo : Width) (mi mo : Param) (s : State), SlogSide li mi.toNat → PulSide lo mo.toNat →
    signedAt li.bits s.a.toNat < 0 → exec (.slog2pul li lo mi mo) s = .next (legalNext s 1))

/-- 60_exceptions.md R215: SLOGDEC and SLOGDECC give 0 for a word other than the sentinel exactly when the
scaled exponent is negative, and else a non-zero H-bit result (SLOGDECC for any tables). -/
def Obligations.UnderflowExactlyAtNegativeScaledExponent : Prop :=
  ∀ (h l : Width) (m f : Param) (s : State) (E : Int) (x : Nat), SlogParams s.cfg h l m.toNat f.toNat →
    s.a.toNat % 2 ^ l.bits ≠ 2 ^ (l.bits - 1) →
    PartsOf s.cfg.slogdecNeg m.toNat (signedAt l.bits s.a.toNat) E x →
    ∃ v v', exec (.slogdec h l m f) s = .next (legalNext s v) ∧
      exec (.slogdecc h l m f) s = .next (legalNext s v') ∧
      v < 2 ^ h.bits ∧ v' < 2 ^ h.bits ∧ (v = 0 ↔ E + f.toNat < 0) ∧ (v' = 0 ↔ E + f.toNat < 0)
end

