-- ==== Sys2Proof/Laws/State.lean ====
section
/-! SUPPORT. One lemma per field per update of State, true by rfl. -/

namespace Sys2Proof.Machine

variable (s : State) (v x : Nat) (c : Cause) (q : Request)

@[simp] theorem State.answered_cmd : (s.answered v).cmd = s.cmd := rfl
@[simp] theorem State.answered_a : (s.answered v).a = s.a := rfl
@[simp] theorem State.answered_cfg : (s.answered v).cfg = s.cfg := rfl
@[simp] theorem State.answered_draws : (s.answered v).draws = s.draws := rfl
@[simp] theorem State.answered_rsp :
    (s.answered v).rsp = some { r := BitVec.ofNat 64 v, ill := false, cause := 0 } := rfl

@[simp] theorem State.raised_cmd : (s.raised c).cmd = s.cmd := rfl
@[simp] theorem State.raised_a : (s.raised c).a = s.a := rfl
@[simp] theorem State.raised_cfg : (s.raised c).cfg = s.cfg := rfl
@[simp] theorem State.raised_draws : (s.raised c).draws = s.draws + 1 := rfl
@[simp] theorem State.raised_rsp :
    (s.raised c).rsp = some { r := Config.freeResult s.draws, ill := true, cause := causeCode c } := rfl

@[simp] theorem State.present_cmd : (s.present q).cmd = q.cmd := rfl
@[simp] theorem State.present_a : (s.present q).a = q.a := rfl
@[simp] theorem State.present_rsp : (s.present q).rsp = s.rsp := rfl
@[simp] theorem State.present_cfg : (s.present q).cfg = s.cfg := rfl
@[simp] theorem State.present_draws : (s.present q).draws = s.draws := rfl

@[simp] theorem State.withOperand_cmd : (s.withOperand x).cmd = s.cmd := rfl
@[simp] theorem State.withOperand_a : (s.withOperand x).a = BitVec.ofNat 64 x := rfl
@[simp] theorem State.withOperand_rsp : (s.withOperand x).rsp = s.rsp := rfl
@[simp] theorem State.withOperand_cfg : (s.withOperand x).cfg = s.cfg := rfl
@[simp] theorem State.withOperand_draws : (s.withOperand x).draws = s.draws := rfl

@[simp] theorem State.withFetchWord_cmd (n w : Nat) : (s.withFetchWord n w).cmd = tableWord n w := rfl
@[simp] theorem State.withFetchWord_a (n w : Nat) : (s.withFetchWord n w).a = s.a := rfl
@[simp] theorem State.withFetchWord_rsp (n w : Nat) : (s.withFetchWord n w).rsp = s.rsp := rfl
@[simp] theorem State.withFetchWord_cfg (n w : Nat) : (s.withFetchWord n w).cfg = s.cfg := rfl
@[simp] theorem State.withFetchWord_draws (n w : Nat) : (s.withFetchWord n w).draws = s.draws := rfl

@[simp] theorem legalNext_cmd : (legalNext s v).cmd = s.cmd := rfl
@[simp] theorem legalNext_a : (legalNext s v).a = s.a := rfl
@[simp] theorem legalNext_cfg : (legalNext s v).cfg = s.cfg := rfl
@[simp] theorem legalNext_draws : (legalNext s v).draws = s.draws := rfl
@[simp] theorem legalNext_rsp :
    (legalNext s v).rsp = some { r := BitVec.ofNat 64 v, ill := false, cause := 0 } := rfl

end Sys2Proof.Machine
end

