-- ==== Sys2Proof/Laws/Operands.lean ====
section
/-! SUPPORT. The integer primitives: bounds, and the bit-vector readings of `trunc` and `sint`. -/

namespace Sys2Proof.Machine

theorem bits_pos (w : Width) : 0 < w.bits := by cases w <;> decide

theorem bits_le (w : Width) : w.bits ≤ 64 := by cases w <;> decide

theorem two_pow_log2Bits (w : Width) : 2 ^ w.log2Bits = w.bits := by cases w <;> rfl

theorem two_pow_pos (n : Nat) : 0 < 2 ^ n := Nat.pos_of_ne_zero (by simp)

theorem operand_lt (s : State) (w : Width) : s.operand w < 2 ^ w.bits :=
  Nat.mod_lt _ (two_pow_pos _)

theorem trunc_lt (n : Nat) (v : Int) : trunc n v < 2 ^ n := by
  have h := Int.emod_lt_of_pos v (show (0 : Int) < 2 ^ n by positivity)
  have h0 := Int.emod_nonneg v (show ((2 : Int) ^ n) ≠ 0 by positivity)
  unfold trunc
  zify
  rw [Int.toNat_of_nonneg h0]
  exact h

theorem trunc_natCast (n v : Nat) : trunc n (v : Int) = v % 2 ^ n := by
  unfold trunc
  norm_cast

/-- `trunc` is what a bit vector of that width keeps. -/
theorem trunc_eq_toNat (n : Nat) (v : Int) : trunc n v = (BitVec.ofInt n v).toNat := by
  simp [trunc, BitVec.toNat_ofInt]

/-- `sint` is the signed reading of the bit vector with that pattern. -/
theorem sint_eq_toInt {n b : Nat} (hn : 0 < n) (hb : b < 2 ^ n) :
    sint n b = (BitVec.ofNat n b).toInt := by
  have h2 : 2 ^ n = 2 * 2 ^ (n - 1) := by
    rw [← Nat.pow_succ']; congr 1; omega
  have h3 : ((2 : Int) ^ n) = ((2 ^ n : Nat) : Int) := by push_cast; rfl
  unfold sint
  rw [BitVec.toInt_eq_toNat_cond, BitVec.toNat_ofNat, Nat.mod_eq_of_lt hb, h3]
  split <;> split <;> omega

/-- The signed operand by the statements' own reading. -/
theorem operandS_eq (s : State) (w : Width) : s.operandS w = signedAt w.bits s.a.toNat := by
  unfold State.operandS signedAt
  rw [sint_eq_toInt (bits_pos w) (operand_lt s w)]
  congr 1
  apply BitVec.eq_of_toNat_eq
  simp [State.operand]

/-- A signed value in range is read back from its pattern. -/
theorem signedAt_trunc {n : Nat} (hn : 0 < n) {x : Int} (h1 : -(2 ^ (n - 1)) ≤ x)
    (h2 : x < 2 ^ (n - 1)) : signedAt n (trunc n x) = x := by
  unfold signedAt
  rw [trunc_eq_toNat, BitVec.ofNat_toNat, BitVec.setWidth_eq]
  exact BitVec.toInt_ofInt_eq_self hn h1 h2

theorem signedAt_natCast {n x : Nat} (hn : 0 < n) (h : x < 2 ^ (n - 1)) : signedAt n x = x := by
  have h2 : 2 ^ n = 2 * 2 ^ (n - 1) := by
    rw [← Nat.pow_succ']; congr 1; omega
  unfold signedAt
  rw [BitVec.toInt_eq_toNat_cond, BitVec.toNat_ofNat, Nat.mod_eq_of_lt (by omega)]
  split <;> omega

/-- The two shifts of `realign` are one floor division. -/
theorem realign_eq_realigned (x : Int) (mi mo : Nat) :
    realign x ((mo : Int) - mi) = realigned x mi mo := by
  unfold realign realigned shl shr
  split
  · next h =>
    have e : mo = mi + ((mo : Int) - mi).toNat := by omega
    generalize ((mo : Int) - mi).toNat = d at e
    subst e
    rw [pow_add, mul_left_comm x, Int.mul_ediv_cancel_left _ (by positivity)]
  · next h =>
    have e : mi = mo + (-((mo : Int) - mi)).toNat := by omega
    generalize (-((mo : Int) - mi)).toNat = d at e
    subst e
    rw [pow_add, mul_comm x, Int.mul_ediv_mul_of_pos _ _ (by positivity)]

end Sys2Proof.Machine
end

