-- ==== Sys2Proof/Laws/Codec.lean ====
section
/-! SUPPORT. The codecs' two shared steps in closed form: the encoders' mantissa is 2^M plus the fraction,
the decoders' reconstruction is the scaled mantissa; and the table corrections. -/

namespace Sys2Proof.Machine

theorem log2_lt_of_lt {H v : Nat} (h0 : v ≠ 0) (h : v < 2 ^ H) : v.log2 < H :=
  (Nat.log2_lt h0).2 h

theorem two_pow_log2_le {v : Nat} (h0 : v ≠ 0) : 2 ^ v.log2 ≤ v := Nat.log2_self_le h0

theorem lt_two_pow_log2_succ (v : Nat) : v < 2 * 2 ^ v.log2 := by
  have := @Nat.lt_log2_self v
  rwa [Nat.pow_succ, Nat.mul_comm] at this

theorem topFraction_lt (M : Nat) {v : Nat} (h0 : v ≠ 0) : topFraction M v < 2 ^ M := by
  unfold topFraction
  have h1 := two_pow_log2_le h0
  have h2 := lt_two_pow_log2_succ v
  rw [Nat.div_lt_iff_lt_mul (two_pow_pos _), Nat.mul_comm (2 ^ M)]
  exact Nat.mul_lt_mul_of_pos_right (by omega) (two_pow_pos _)

/-- `norm` is v with its leading one moved to bit H − 1; the truncation to H bits loses nothing. -/
theorem normalised_eq {H v : Nat} (h0 : v ≠ 0) (h : v < 2 ^ H) :
    normalised H v = v * 2 ^ (H - 1 - v.log2) := by
  have hl := log2_lt_of_lt h0 h
  have h2 := lt_two_pow_log2_succ v
  have e : normalised H v = v * 2 ^ (H - 1 - v.log2) % 2 ^ H := by
    unfold normalised nlz shl
    rw [← trunc_natCast]
    push_cast
    rfl
  rw [e, Nat.mod_eq_of_lt]
  calc v * 2 ^ (H - 1 - v.log2) < 2 * 2 ^ v.log2 * 2 ^ (H - 1 - v.log2) :=
        Nat.mul_lt_mul_of_pos_right h2 (two_pow_pos _)
    _ = 2 ^ H := by
        rw [← Nat.pow_succ', ← Nat.pow_add]; congr 1; omega

/-- The encoders' mantissa: the leading one at bit M and the fraction below it (43_pul_codec.md R142). -/
theorem leadingMantissa_eq {H M v : Nat} (h0 : v ≠ 0) (h : v < 2 ^ H) (hM : M ≤ H - 1) :
    leadingMantissa H M v = 2 ^ M + topFraction M v := by
  have hl := log2_lt_of_lt h0 h
  have h1 := two_pow_log2_le h0
  unfold leadingMantissa topFraction
  rw [normalised_eq h0 h, ← Nat.mul_add_div (two_pow_pos _), ← Nat.add_mul, Nat.add_sub_cancel' h1]
  have e : 2 ^ (H - 1 - M) * 2 ^ M = 2 ^ (H - 1 - v.log2) * 2 ^ v.log2 := by
    rw [← Nat.pow_add, ← Nat.pow_add]; congr 1; omega
  rw [← Nat.mul_div_mul_right _ _ (two_pow_pos v.log2), Nat.mul_assoc, ← e,
    ← Nat.mul_assoc, Nat.mul_right_comm, Nat.mul_comm (2 ^ (H - 1 - M)) (2 ^ v.log2),
    Nat.mul_div_mul_right _ _ (two_pow_pos _)]

/-- The decoders' reconstruction is ⌊(1 + m/2^M) · 2^e⌋ (30_encoding.md R63). -/
theorem reconstruct_eq {H M m e : Nat} (hM : M ≤ H - 1) (hm : m < 2 ^ M) (he : e ≤ H - 1) :
    reconstruct H M m e = scaledUp M m e := by
  unfold reconstruct scaledUp
  have e1 : 2 ^ (H - 1) = 2 ^ M * 2 ^ (H - 1 - M) := by
    rw [← Nat.pow_add]; congr 1; omega
  have e2 : 2 ^ M * 2 ^ (H - 1 - M) = 2 ^ e * 2 ^ (H - 1 - e) := by
    rw [← Nat.pow_add, ← Nat.pow_add]; congr 1; omega
  have hlt : m * 2 ^ (H - 1 - M) < 2 ^ (H - 1) := by
    rw [e1]; exact Nat.mul_lt_mul_of_pos_right hm (two_pow_pos _)
  have hor : 2 ^ (H - 1) ||| m * 2 ^ (H - 1 - M) = 2 ^ (H - 1) + m * 2 ^ (H - 1 - M) := by
    have := Nat.two_pow_add_eq_or_of_lt hlt 1
    rw [Nat.mul_one] at this
    exact this.symm
  rw [hor, e1, ← Nat.add_mul]
  rw [← Nat.mul_div_mul_right _ (2 ^ M) (two_pow_pos (H - 1 - M)), e2, Nat.mul_right_comm,
    Nat.mul_comm (2 ^ e) (2 ^ (H - 1 - e)), Nat.mul_div_mul_right _ _ (two_pow_pos _)]

theorem idx8_eq (f M : Nat) : idx8 f M = f * 256 / 2 ^ M := by
  unfold idx8
  have h256 : 256 = 2 ^ 8 := rfl
  split
  · next h =>
    have e : 2 ^ M = 2 ^ (M - 8) * 2 ^ 8 := by rw [← Nat.pow_add]; congr 1; omega
    rw [h256, e, Nat.mul_div_mul_right _ _ (two_pow_pos _)]
  · next h =>
    have e : (2 : Nat) ^ 8 = 2 ^ (8 - M) * 2 ^ M := by rw [← Nat.pow_add]; congr 1; omega
    rw [h256, e, ← Nat.mul_assoc, Nat.mul_div_cancel _ (two_pow_pos _)]

theorem scaleM_eq (q t M : Nat) : scaleM q t M = t * 2 ^ M / 2 ^ q := by
  unfold scaleM
  split
  · next h =>
    have e : 2 ^ q = 2 ^ (q - M) * 2 ^ M := by rw [← Nat.pow_add]; congr 1; omega
    rw [e, Nat.mul_div_mul_right _ _ (two_pow_pos _)]
  · next h =>
    have e : 2 ^ M = 2 ^ (M - q) * 2 ^ q := by rw [← Nat.pow_add]; congr 1; omega
    rw [e, ← Nat.mul_assoc, Nat.mul_div_cancel _ (two_pow_pos _)]

theorem idx8_lt {f M : Nat} (h : f < 2 ^ M) : idx8 f M < 256 := by
  rw [idx8_eq, Nat.div_lt_iff_lt_mul (two_pow_pos _), Nat.mul_comm 256]
  exact Nat.mul_lt_mul_of_pos_right h (by decide)

end Sys2Proof.Machine
end

