-- ==== Sys2Proof/Laws/Decode.lean ====
section
/-! SUPPORT. The fields of a packed request word, the width code, and what one row of the map can answer. -/

namespace Sys2Proof

section
variable (op : BitVec 5) (wh wl : BitVec 2) (p q : Param)

theorem fieldOp_pack : fieldOp (pack op wh wl p q) = op := by
  unfold fieldOp pack
  ext i hi
  interval_cases i <;> simp

theorem fieldWh_pack : fieldWh (pack op wh wl p q) = wh := by
  unfold fieldWh pack
  ext i hi
  interval_cases i <;> simp

theorem fieldWl_pack : fieldWl (pack op wh wl p q) = wl := by
  unfold fieldWl pack
  ext i hi
  interval_cases i <;> simp

theorem fieldP_pack : fieldP (pack op wh wl p q) = p := by
  unfold fieldP pack
  ext i hi
  interval_cases i <;> simp

theorem fieldQ_pack : fieldQ (pack op wh wl p q) = q := by
  unfold fieldQ pack
  ext i hi
  interval_cases i <;> simp

theorem fieldRsv_pack : fieldRsv (pack op wh wl p q) = 0 := by
  unfold fieldRsv pack
  ext i hi
  interval_cases i <;> simp

end

theorem widthOfCode_codeOfWidth (w : Width) : widthOfCode (codeOfWidth w) = w := by cases w <;> rfl

theorem codeOfWidth_widthOfCode (c : BitVec 2) : codeOfWidth (widthOfCode c) = c := by
  revert c; decide

theorem extract_toNat (c : CmdWord) (lo n : Nat) :
    (c.extractLsb' lo n).toNat = c.toNat / 2 ^ lo % 2 ^ n := by
  simp [BitVec.extractLsb'_toNat, Nat.shiftRight_eq_div_pow]

/-- A word with clear reserved bits is its five fields packed. -/
theorem pack_fields {c : CmdWord} (h : fieldRsv c = 0) :
    pack (fieldOp c) (fieldWh c) (fieldWl c) (fieldP c) (fieldQ c) = c := by
  have hb : ∀ k (hk : k < 11), c.getLsbD (21 + k) = false := by
    intro k hk
    have := congrArg (fun x => x.getLsbD k) h
    simpa [fieldRsv, BitVec.getLsbD_extractLsb', hk] using this
  unfold fieldOp fieldWh fieldWl fieldP fieldQ pack
  ext i hi
  by_cases h21 : 21 ≤ i
  · have := hb (i - 21) (by omega)
    rw [Nat.add_sub_cancel' h21, BitVec.getLsbD_eq_getElem hi] at this
    rw [this]
    clear this
    interval_cases i <;> simp
  · interval_cases i <;> simp

/-- What one row can answer. -/
theorem row_eq_ok {u : Uses} {c : CmdWord} {i j : Instr} :
    row u c i = .ok j ↔ unusedClear u c = true ∧ i = j := by
  unfold row
  split <;> simp_all

theorem row_eq_error {u : Uses} {c : CmdWord} {i : Instr} {e : Cause} :
    row u c i = .error e ↔ unusedClear u c = false ∧ e = .reservedField := by
  unfold row
  cases unusedClear u c
  · exact ⟨fun h => ⟨rfl, (Except.error.inj h).symm⟩, fun h => h.2 ▸ rfl⟩
  · simp

/-- The request word's number is its formula: nothing is lost in 32 bits (30_encoding.md R70). -/
theorem requestWord_toNat {op wh wl p q : Nat} (h1 : op < 32) (h2 : wh < 4) (h3 : wl < 4)
    (h4 : p < 64) (h5 : q < 64) :
    (Machine.requestWord op wh wl p q).toNat = op + wh * 32 + wl * 128 + p * 512 + q * 32768 := by
  unfold Machine.requestWord
  rw [BitVec.toNat_ofNat]
  omega

/-- The request word by its formula is the packed word of its fields (30_encoding.md R70). -/
theorem requestWord_eq_pack {op wh wl p q : Nat} (h1 : op < 32) (h2 : wh < 4) (h3 : wl < 4)
    (h4 : p < 64) (h5 : q < 64) :
    Machine.requestWord op wh wl p q =
      pack (BitVec.ofNat 5 op) (BitVec.ofNat 2 wh) (BitVec.ofNat 2 wl) (BitVec.ofNat 6 p)
        (BitVec.ofNat 6 q) := by
  have hc := requestWord_toNat h1 h2 h3 h4 h5
  have hr : fieldRsv (Machine.requestWord op wh wl p q) = 0 := by
    apply BitVec.eq_of_toNat_eq
    rw [fieldRsv, extract_toNat, hc]
    change _ = 0
    omega
  rw [← pack_fields hr]
  congr 1 <;> apply BitVec.eq_of_toNat_eq
  · rw [fieldOp, extract_toNat, hc, BitVec.toNat_ofNat]; omega
  · rw [fieldWh, extract_toNat, hc, BitVec.toNat_ofNat]; omega
  · rw [fieldWl, extract_toNat, hc, BitVec.toNat_ofNat]; omega
  · rw [fieldP, extract_toNat, hc, BitVec.toNat_ofNat]; omega
  · rw [fieldQ, extract_toNat, hc, BitVec.toNat_ofNat]; omega

/-! A packed word under the mask of each row form leaves its `op` (30_encoding.md R80). -/

section
variable (op : BitVec 5) (wh wl : BitVec 2) (p q : Param)

theorem pack_mask_w : pack op wh 0 0 0 &&& 0xFFFFFF9F#32 = op.setWidth 32 := by
  unfold pack
  ext i hi
  interval_cases i <;> simp

theorem pack_mask_wp : pack op wh 0 p 0 &&& 0xFFFF819F#32 = op.setWidth 32 := by
  unfold pack
  ext i hi
  interval_cases i <;> simp

theorem pack_mask_hl : pack op wh wl 0 0 &&& 0xFFFFFE1F#32 = op.setWidth 32 := by
  unfold pack
  ext i hi
  interval_cases i <;> simp

theorem pack_mask_hlq : pack op wh wl 0 q &&& 0xFFE07E1F#32 = op.setWidth 32 := by
  unfold pack
  ext i hi
  interval_cases i <;> simp

theorem pack_mask_hlp : pack op wh wl p 0 &&& 0xFFFF801F#32 = op.setWidth 32 := by
  unfold pack
  ext i hi
  interval_cases i <;> simp

theorem pack_mask_all : pack op wh wl p q &&& 0xFFE0001F#32 = op.setWidth 32 := by
  unfold pack
  ext i hi
  interval_cases i <;> simp

end

end Sys2Proof
end

