-- ==== Sys2Proof/Laws/Legal.lean ====
section
/-! SUPPORT. The machine's 'Legal when' checks are the conditions of the statements. -/

namespace Sys2Proof.Machine

variable (c : Config) (h l : Width) (m f : Nat)

theorem bmaskLegal_iff : bmaskLegal h m = true ↔ m ≤ h.bits - 1 := by simp [bmaskLegal]

theorem fixedLegal_iff : fixedLegal c h l f = true ↔ FixedParams c h l f := by
  simp only [fixedLegal, Bool.and_eq_true, decide_eq_true_eq]

theorem pulLegal_iff : pulLegal h l m = true ↔ PulParams h l m := by simp [pulLegal]

theorem slogLegal_iff : slogLegal c h l m f = true ↔ SlogParams c h l m f := by
  simp only [slogLegal, Bool.and_eq_true, decide_eq_true_eq, le_min_iff, and_assoc]

theorem pulSideLegal_iff : pulSideLegal l m = true ↔ PulSide l m := by simp [pulSideLegal]

theorem slogSideLegal_iff : slogSideLegal l m = true ↔ SlogSide l m := by simp [slogSideLegal]

/-- With the default `F_MAX` the bound is H − 1 (00_scope.md R6). -/
theorem fMax_default {c : Config} (hc : c.fMax = FMax.default) (h : Width) : fMax c h = h.bits - 1 := by
  cases h <;> simp [fMax, hc, FMax.default, Width.bits]

/-- The raw reading of `F_MAX` is the machine's. -/
theorem fMaxAt_bits (c : Config) (h : Width) : fMaxAt c h.bits = fMax c h := by
  cases h <;> rfl

/-- A legal PUL budget leaves an exponent field for every exponent below H. -/
theorem PulParams.fits {h l : Width} {m : Nat} (p : PulParams h l m) : h.bits * 2 ^ m ≤ 2 ^ l.bits := by
  rw [← two_pow_log2Bits h, ← Nat.pow_add]
  refine Nat.pow_le_pow_right (by decide) ?_
  have := p.2.1
  have : h.log2Bits ≤ l.bits := by cases h <;> cases l <;> decide
  omega

/-- A legal SLOG budget leaves a signed exponent field for every exponent in −H to H. -/
theorem SlogParams.fits {c : Config} {h l : Width} {m f : Nat} (p : SlogParams c h l m f) :
    h.bits * 2 ^ m ≤ 2 ^ (l.bits - 1) := by
  rw [← two_pow_log2Bits h, ← Nat.pow_add]
  refine Nat.pow_le_pow_right (by decide) ?_
  have := p.2.1
  have : h.log2Bits ≤ l.bits - 1 := by cases h <;> cases l <;> decide
  omega

end Sys2Proof.Machine
end

