-- ==== Sys2Proof/Laws/Ops.lean ====
section
/-! SUPPORT. What the shared operations can do, said once: a legal end, an illegal end, and the two guarded
ends every meaning is written with. -/

namespace Sys2Proof.Machine

/-- `answer` is `legalNext`. -/
theorem answer_eq (v : Nat) (s : State) : answer v s = .next (legalNext s v) := rfl

/-- `raise` leaves an illegal response of its cause and nothing else. -/
theorem raise_eq (c : Cause) (s : State) : raise c s = .next (s.raised c) := rfl

theorem raised_illegal (c : Cause) (s : State) : IllegalNext s (s.raised c) (causeCode c).toNat :=
  ⟨Config.freeResult s.draws, by cases c <;> rfl⟩

theorem raise_illegal (c : Cause) (s : State) :
    ∃ t, raise c s = .next t ∧ IllegalNext s t (causeCode c).toNat :=
  ⟨_, rfl, raised_illegal c s⟩

/-- Legal parameters: the answer. -/
theorem answerWhen_legal {b : Bool} (h : b = true) (v : Nat) (s : State) :
    answerWhen b v s = .next (legalNext s v) := by
  simp [answerWhen, h, answer_eq]

/-- Illegal parameters: cause 3. -/
theorem answerWhen_illegal {b : Bool} (h : b = false) (v : Nat) (s : State) :
    ∃ t, answerWhen b v s = .next t ∧ IllegalNext s t 3 := by
  simpa [answerWhen, h, causeCode] using raise_illegal .parameterRange s

/-- A non-zero operand: the answer. -/
theorem answerNonzero_ne {x : Nat} (h : x ≠ 0) (v : Nat) (s : State) :
    answerNonzero x v s = .next (legalNext s v) := by
  simp [answerNonzero, h, answer_eq]

/-- A zero operand: cause 4. -/
theorem answerNonzero_zero (v : Nat) (s : State) :
    ∃ t, answerNonzero 0 v s = .next t ∧ IllegalNext s t 4 := by
  simpa [answerNonzero, causeCode] using raise_illegal .operandRange s

/-- Everything a guarded answer can do. -/
theorem answerWhen_cases (b : Bool) (v : Nat) (s : State) :
    (b = true ∧ answerWhen b v s = .next (legalNext s v)) ∨
      (b = false ∧ answerWhen b v s = .next (s.raised .parameterRange)) := by
  cases b <;> simp [answerWhen, answer_eq, raise_eq]

theorem answerNonzero_cases (x v : Nat) (s : State) :
    (x ≠ 0 ∧ answerNonzero x v s = .next (legalNext s v)) ∨
      (x = 0 ∧ answerNonzero x v s = .next (s.raised .operandRange)) := by
  by_cases h : x = 0 <;> simp [answerNonzero, h, answer_eq, raise_eq]

theorem tableEntry_lt (t : Vector Nat 256) {i : Nat} (h : i < 256) : tableEntry t i = t[i] := by
  simp [tableEntry, h]

theorem tableEntry_getD (t : Vector Nat 256) (i : Nat) : tableEntry t i = t.toList.getD i 0 := by
  unfold tableEntry
  split
  · next h => simp [List.getD, h]
  · next h => simp [List.getD, Nat.le_of_not_lt h]

/-- Everything an operation of the map can do: a legal response and nothing else, or an illegal one of
cause 3 or 4 and nothing else. Later proofs cite this instead of unfolding `exec`. -/
theorem exec_cases (i : Instr) (s : State) :
    (∃ v, exec i s = .next (legalNext s v)) ∨ exec i s = .next (s.raised .parameterRange) ∨
      exec i s = .next (s.raised .operandRange) := by
  have whenCase (b : Bool) (v : Nat) :
      (∃ u, answerWhen b v s = .next (legalNext s u)) ∨
        answerWhen b v s = .next (s.raised .parameterRange) ∨
        answerWhen b v s = .next (s.raised .operandRange) := by
    rcases answerWhen_cases b v s with ⟨_, h⟩ | ⟨_, h⟩
    · exact .inl ⟨v, h⟩
    · exact .inr (.inl h)
  have nonzeroCase (x v : Nat) :
      (∃ u, answerNonzero x v s = .next (legalNext s u)) ∨
        answerNonzero x v s = .next (s.raised .parameterRange) ∨
        answerNonzero x v s = .next (s.raised .operandRange) := by
    rcases answerNonzero_cases x v s with ⟨_, h⟩ | ⟨_, h⟩
    · exact .inl ⟨v, h⟩
    · exact .inr (.inr h)
  cases i <;>
    first
    | exact .inl ⟨_, rfl⟩
    | exact whenCase _ _
    | exact nonzeroCase _ _

end Sys2Proof.Machine
end

