-- ==== Sys2Proof/Laws/PerInstr.lean ====
section
/-! SUPPORT. Per operation: its encoded word meets its own row of the opcode table, `cmd & mask = match`
(30_encoding.md R80). -/

namespace Sys2Proof.Laws.RowMatch

/-- The place of an operation in the opcode table, its `op` (30_encoding.md R80). -/
def rowIndex : Instr → Nat
  | .clz _ => 0
  | .fls _ => 1
  | .log2f _ => 2
  | .bmask _ _ => 3
  | .umin _ => 4
  | .umax _ => 5
  | .smin _ => 6
  | .smax _ => 7
  | .pulmaxm _ _ => 8
  | .slogmaxm _ _ => 9
  | .tofpu _ _ _ => 10
  | .tofps _ _ _ => 11
  | .fromfpu _ _ _ => 12
  | .fromfps _ _ _ => 13
  | .pulenc _ _ _ => 14
  | .puldec _ _ _ => 15
  | .slogenc _ _ _ _ => 16
  | .slogdec _ _ _ _ => 17
  | .slogencc _ _ _ _ => 18
  | .slogdecc _ _ _ _ => 19
  | .pul2pul _ _ _ _ => 20
  | .slog2slog _ _ _ _ => 21
  | .pul2slog _ _ _ _ => 22
  | .slog2pul _ _ _ _ => 23

/-- The encoded word of `i` meets the row of `i`. -/
def Statement (i : Instr) : Prop :=
  ∃ x, Machine.opcodeRows[rowIndex i]? = some x ∧ encode i &&& x.1 = x.2

theorem clz (w : Width) : Statement (.clz w) :=
  ⟨_, rfl, pack_mask_w _ _⟩

theorem fls (w : Width) : Statement (.fls w) :=
  ⟨_, rfl, pack_mask_w _ _⟩

theorem log2f (w : Width) : Statement (.log2f w) :=
  ⟨_, rfl, pack_mask_w _ _⟩

theorem bmask (w : Width) (hi : Param) : Statement (.bmask w hi) :=
  ⟨_, rfl, pack_mask_wp _ _ _⟩

theorem umin (w : Width) : Statement (.umin w) :=
  ⟨_, rfl, pack_mask_w _ _⟩

theorem umax (w : Width) : Statement (.umax w) :=
  ⟨_, rfl, pack_mask_w _ _⟩

theorem smin (w : Width) : Statement (.smin w) :=
  ⟨_, rfl, pack_mask_w _ _⟩

theorem smax (w : Width) : Statement (.smax w) :=
  ⟨_, rfl, pack_mask_w _ _⟩

theorem pulmaxm (h l : Width) : Statement (.pulmaxm h l) :=
  ⟨_, rfl, pack_mask_hl _ _ _⟩

theorem slogmaxm (h l : Width) : Statement (.slogmaxm h l) :=
  ⟨_, rfl, pack_mask_hl _ _ _⟩

theorem tofpu (h l : Width) (f : Param) : Statement (.tofpu h l f) :=
  ⟨_, rfl, pack_mask_hlq _ _ _ _⟩

theorem tofps (h l : Width) (f : Param) : Statement (.tofps h l f) :=
  ⟨_, rfl, pack_mask_hlq _ _ _ _⟩

theorem fromfpu (h l : Width) (f : Param) : Statement (.fromfpu h l f) :=
  ⟨_, rfl, pack_mask_hlq _ _ _ _⟩

theorem fromfps (h l : Width) (f : Param) : Statement (.fromfps h l f) :=
  ⟨_, rfl, pack_mask_hlq _ _ _ _⟩

theorem pulenc (h l : Width) (m : Param) : Statement (.pulenc h l m) :=
  ⟨_, rfl, pack_mask_hlp _ _ _ _⟩

theorem puldec (h l : Width) (m : Param) : Statement (.puldec h l m) :=
  ⟨_, rfl, pack_mask_hlp _ _ _ _⟩

theorem slogenc (h l : Width) (m f : Param) : Statement (.slogenc h l m f) :=
  ⟨_, rfl, pack_mask_all _ _ _ _ _⟩

theorem slogdec (h l : Width) (m f : Param) : Statement (.slogdec h l m f) :=
  ⟨_, rfl, pack_mask_all _ _ _ _ _⟩

theorem slogencc (h l : Width) (m f : Param) : Statement (.slogencc h l m f) :=
  ⟨_, rfl, pack_mask_all _ _ _ _ _⟩

theorem slogdecc (h l : Width) (m f : Param) : Statement (.slogdecc h l m f) :=
  ⟨_, rfl, pack_mask_all _ _ _ _ _⟩

theorem pul2pul (li lo : Width) (mi mo : Param) : Statement (.pul2pul li lo mi mo) :=
  ⟨_, rfl, pack_mask_all _ _ _ _ _⟩

theorem slog2slog (li lo : Width) (mi mo : Param) : Statement (.slog2slog li lo mi mo) :=
  ⟨_, rfl, pack_mask_all _ _ _ _ _⟩

theorem pul2slog (li lo : Width) (mi mo : Param) : Statement (.pul2slog li lo mi mo) :=
  ⟨_, rfl, pack_mask_all _ _ _ _ _⟩

theorem slog2pul (li lo : Width) (mi mo : Param) : Statement (.slog2pul li lo mi mo) :=
  ⟨_, rfl, pack_mask_all _ _ _ _ _⟩

end Sys2Proof.Laws.RowMatch
end

