-- ==== Sys2Proof/Laws/Values.lean ====
section
/-! SUPPORT. One lemma per codec function: its value in closed form. -/

namespace Sys2Proof.Machine

/-- Exponent and fraction of a value below 2^H stay below H · 2^M. -/
theorem exponent_fraction_lt {H M v : Nat} (h0 : v ≠ 0) (h : v < 2 ^ H) :
    v.log2 * 2 ^ M + topFraction M v < H * 2 ^ M := by
  have h1 := topFraction_lt M h0
  have h2 : (v.log2 + 1) * 2 ^ M ≤ H * 2 ^ M := Nat.mul_le_mul_right _ (log2_lt_of_lt h0 h)
  rw [Nat.add_mul] at h2
  omega

/-- PULENC's word (43_pul_codec.md R142). -/
theorem pulEncode_eq {H L M v : Nat} (h2 : 2 ≤ v) (h : v < 2 ^ H) (hM : M ≤ H - 1)
    (fits : H * 2 ^ M ≤ 2 ^ L) : pulEncode H L M v = v.log2 * 2 ^ M + topFraction M v := by
  have h0 : v ≠ 0 := by omega
  have hl := log2_lt_of_lt h0 h
  have hk : 1 ≤ v.log2 := (Nat.le_log2 h0).2 h2
  have hlt := exponent_fraction_lt (M := M) h0 h
  have he : (H - 2 - nlz H v) * 2 ^ M + 2 ^ M = v.log2 * 2 ^ M := by
    have : v.log2 = (H - 2 - nlz H v) + 1 := by unfold nlz; omega
    conv_rhs => rw [this, Nat.add_mul, Nat.one_mul]
  unfold pulEncode
  rw [if_neg (by omega)]
  dsimp only
  rw [leadingMantissa_eq h0 h hM, ← Nat.add_assoc, he, Nat.mod_eq_of_lt (by omega)]

theorem pulEncode_le_one {H L M v : Nat} (h : v ≤ 1) : pulEncode H L M v = 1 - v := by
  simp [pulEncode, h]

/-- Every PUL codeword fits its width, whatever is encoded (43_pul_codec.md R141). -/
theorem pulEncode_lt {L : Nat} (hL : 0 < L) (H M v : Nat) : pulEncode H L M v < 2 ^ L := by
  have := Nat.one_lt_two_pow hL.ne'
  unfold pulEncode
  split
  · omega
  · exact Nat.mod_lt _ (two_pow_pos _)

/-- Every decoded value fits the integer side (43_pul_codec.md R143; 44_slog_codec.md R163). -/
theorem decodedValue_lt {H M f : Nat} (hH : 0 < H) (hf : f < 2 ^ M) (E : Int) :
    decodedValue H M f E < 2 ^ H := by
  have := two_pow_pos H
  unfold decodedValue
  split
  · exact this
  · split
    · omega
    · have hE : 2 ^ (E.toNat + 1) ≤ 2 ^ H := Nat.pow_le_pow_right (by decide) (by omega)
      rw [scaledUp, Nat.div_lt_iff_lt_mul (two_pow_pos _)]
      calc (2 ^ M + f) * 2 ^ E.toNat < 2 * 2 ^ M * 2 ^ E.toNat :=
            Nat.mul_lt_mul_of_pos_right (by omega) (two_pow_pos _)
        _ = 2 ^ (E.toNat + 1) * 2 ^ M := by rw [pow_succ]; ring
        _ ≤ _ := Nat.mul_le_mul_right _ hE

/-- PULDEC's value (43_pul_codec.md R143). -/
theorem pulDecode_eq {H M e f : Nat} (hH : 0 < H) (hM : M ≤ H - 1) (hf : f < 2 ^ M)
    (h1 : e * 2 ^ M + f ≠ 1) : pulDecode H M (e * 2 ^ M + f) = decodedValue H M f e := by
  have hd : (e * 2 ^ M + f) / 2 ^ M = e := by
    rw [Nat.mul_comm, Nat.mul_add_div (two_pow_pos _), Nat.div_eq_of_lt hf, Nat.add_zero]
  have hm : (e * 2 ^ M + f) % 2 ^ M = f := by
    rw [Nat.mul_comm, Nat.mul_add_mod, Nat.mod_eq_of_lt hf]
  unfold pulDecode decodedValue
  rw [if_neg h1, hd, hm]
  rw [if_neg (show ¬ (e : Int) < 0 by omega), Int.toNat_natCast]
  by_cases he : H ≤ e
  · rw [if_pos he, if_pos (by exact_mod_cast he)]
  · rw [if_neg he, if_neg (by exact_mod_cast he)]
    exact reconstruct_eq hM hf (by omega)

/-- The signed number SLOGENC builds (44_slog_codec.md R162). -/
theorem slogNumber_eq {H M F v : Nat} (h0 : v ≠ 0) (h : v < 2 ^ H) :
    slogExponent H F v * 2 ^ M + 2 ^ M = ((v.log2 : Int) - F) * 2 ^ M := by
  have hl := log2_lt_of_lt h0 h
  have e : slogExponent H F v = (v.log2 : Int) - F - 1 := by unfold slogExponent nlz; omega
  rw [e]; ring

/-- The number with exponent ⌊log₂ v⌋ − F and a fraction below 2^M lies strictly inside the signed range
(44_slog_codec.md R162). -/
theorem slogNumber_range {H L M F v g : Nat} (h0 : v ≠ 0) (h : v < 2 ^ H) (hF : F ≤ H - 1)
    (fits : H * 2 ^ M ≤ 2 ^ (L - 1)) (hg : g < 2 ^ M) :
    -(2 ^ (L - 1)) < ((v.log2 : Int) - F) * 2 ^ M + g ∧
      ((v.log2 : Int) - F) * 2 ^ M + g < 2 ^ (L - 1) := by
  have hl := log2_lt_of_lt h0 h
  have fits' : (H : Int) * 2 ^ M ≤ 2 ^ (L - 1) := by exact_mod_cast fits
  have hg' : (g : Int) < 2 ^ M := by exact_mod_cast hg
  have hp : (0 : Int) < 2 ^ M := by positivity
  constructor
  · have : (-(H - 1 : Int)) * 2 ^ M ≤ ((v.log2 : Int) - F) * 2 ^ M :=
      mul_le_mul_of_nonneg_right (by omega) hp.le
    have e : (-(H - 1 : Int)) * 2 ^ M = -(H * 2 ^ M) + 2 ^ M := by ring
    omega
  · have : ((v.log2 : Int) - F) * 2 ^ M ≤ (H - 1 : Int) * 2 ^ M :=
      mul_le_mul_of_nonneg_right (by omega) hp.le
    have e : (H - 1 : Int) * 2 ^ M = H * 2 ^ M - 2 ^ M := by ring
    omega

/-- SLOGENC's word (44_slog_codec.md R162). -/
theorem slogEncode_eq {H L M F v : Nat} (h0 : v ≠ 0) (h : v < 2 ^ H) (hM : M ≤ H - 1) :
    slogEncode H L M F v = trunc L (((v.log2 : Int) - F) * 2 ^ M + topFraction M v) := by
  unfold slogEncode
  rw [if_neg h0, leadingMantissa_eq h0 h hM, ← slogNumber_eq h0 h]
  push_cast
  rw [← add_assoc]

/-- SLOGENCC's word (44_slog_codec.md R166). -/
theorem slogEncodeCorrected_eq {c : Config} {H L M F v : Nat} (h0 : v ≠ 0) (h : v < 2 ^ H)
    (hM : M ≤ H - 1) : slogEncodeCorrected c H L M F v =
      trunc L (((v.log2 : Int) - F) * 2 ^ M + correctedFraction c M (topFraction M v)) := by
  unfold slogEncodeCorrected
  rw [if_neg h0]
  dsimp only
  rw [leadingMantissa_eq h0 h hM, Nat.add_sub_cancel_left, ← slogNumber_eq h0 h]

theorem correctedFraction_lt (c : Config) (M g : Nat) : correctedFraction c M g < 2 ^ M := by
  have := two_pow_pos M
  unfold correctedFraction
  omega

/-- The corrections are the statements' corrections (44_slog_codec.md R165). -/
theorem ecorr_eq (c : Config) (f M : Nat) : ecorr c f M = correction c.encLut c.lutQ f M := by
  rw [ecorr, scaleM_eq, idx8_eq, tableEntry_getD, correction]

theorem dcorr_eq (c : Config) (f M : Nat) : dcorr c f M = correction c.decLut c.lutQ f M := by
  rw [dcorr, scaleM_eq, idx8_eq, tableEntry_getD, correction]

/-- The parts of a codeword are unique, and `slogSplit` gives them (44_slog_codec.md R163). -/
theorem partsOf_iff {neg : SlogdecNeg} {M : Nat} {x E : Int} {f : Nat} :
    PartsOf neg M x E f ↔ slogSplit neg M x = (E, f) := by
  have hp := two_pow_pos M
  cases neg with
  | asWritten =>
    simp only [PartsOf, slogSplit, Prod.mk.injEq]
    constructor
    · rintro ⟨hf, e, he, rfl⟩
      rw [he]
      have hd : (e * 2 ^ M + f) / 2 ^ M = e := by
        rw [Nat.mul_comm, Nat.mul_add_div hp, Nat.div_eq_of_lt hf, Nat.add_zero]
      have hm : (e * 2 ^ M + f) % 2 ^ M = f := by
        rw [Nat.mul_comm, Nat.mul_add_mod, Nat.mod_eq_of_lt hf]
      exact ⟨by rw [hd], hm⟩
    · rintro ⟨h1, rfl⟩
      exact ⟨Nat.mod_lt _ hp, x.natAbs / 2 ^ M, (Nat.div_add_mod' _ _).symm, h1.symm⟩
  | floor =>
    have hp' : (0 : Int) < 2 ^ M := by positivity
    have hc : ((2 ^ M : Nat) : Int) = 2 ^ M := by push_cast; rfl
    simp only [PartsOf, slogSplit, shr, Prod.mk.injEq]
    have hdm := Int.mul_ediv_add_emod x (2 ^ M)
    have h0 := Int.emod_nonneg x hp'.ne'
    have hl := Int.emod_lt_of_pos x hp'
    have hcomm : x / 2 ^ M * 2 ^ M = 2 ^ M * (x / 2 ^ M) := mul_comm _ _
    constructor
    · rintro ⟨hf, rfl⟩
      have hf' : (f : Int) < 2 ^ M := by rw [← hc]; exact_mod_cast hf
      have hd : (E * 2 ^ M + f) / 2 ^ M = E := by
        rw [Int.add_comm, Int.add_mul_ediv_right _ _ hp'.ne', Int.ediv_eq_zero_of_lt (by omega) hf',
          zero_add]
      rw [hd]
      exact ⟨rfl, by omega⟩
    · rintro ⟨rfl, rfl⟩
      exact ⟨by omega, by omega⟩

theorem slogSplit_lt (neg : SlogdecNeg) (M : Nat) (x : Int) : (slogSplit neg M x).2 < 2 ^ M :=
  (partsOf_iff (E := (slogSplit neg M x).1).2 rfl).1

/-- SLOGDEC's and SLOGDECC's value (44_slog_codec.md R163, R167). -/
theorem slogDecodeWith_eq {fix : Nat → Nat} {neg : SlogdecNeg} {H L M F cw f : Nat} {E : Int}
    (hL : 0 < L) (hcw : cw < 2 ^ L) (hM : M ≤ H - 1) (h1 : cw ≠ 2 ^ (L - 1))
    (hp : PartsOf neg M (signedAt L cw) E f) (hfix : fix f < 2 ^ M) :
    slogDecodeWith fix neg H L M F cw = decodedValue H M (fix f) (E + F) := by
  unfold slogDecodeWith decodedValue
  rw [if_neg h1, sint_eq_toInt hL hcw]
  have hs := partsOf_iff.1 hp
  unfold signedAt at hs
  rw [hs]
  dsimp only
  split
  · rfl
  · split
    · rfl
    · exact reconstruct_eq hM hfix (by omega)

theorem slogDecodeWith_sentinel (fix : Nat → Nat) (neg : SlogdecNeg) (H L M F : Nat) :
    slogDecodeWith fix neg H L M F (2 ^ (L - 1)) = 0 := by
  simp [slogDecodeWith]

/-- A transcode is the realigned value cut to the output width (45_transcoders.md R191 to R194). -/
theorem transcode_eq (lo : Width) (mi mo : Param) (x : Int) :
    transcode lo mi mo x = (realigned x mi.toNat mo.toNat % 2 ^ lo.bits).toNat := by
  rw [transcode, realign_eq_realigned, trunc]

end Sys2Proof.Machine
end

