-- ==== Sys2Proof/Tests/Slice0.lean ====
section
/-! SUPPORT. The model's own tests: every decoding on a word written out bit by bit from 30_encoding.md R70
and R80, ill-formed terms that well-formedness refuses, results of 95_test_vectors.md and the rules' examples,
and for every statement with hypotheses a concrete state that meets them. -/

namespace Sys2Proof.Tests

open Sys2Proof Sys2Proof.Machine

/-- A request on the ports of a machine just reset. -/
def onPorts (cmd a : Nat) : State :=
  State.reset.present { cmd := BitVec.ofNat 32 cmd, a := BitVec.ofNat 64 a }

/-- The result a request gets, when it is legal. -/
def resultOf (cmd a : Nat) : Option Nat :=
  match step (onPorts cmd a) with
  | .next t => match t.rsp with
    | some y => if y.ill then none else some y.r.toNat
    | none => none
  | _ => none

/-- The cause a request gets, 0 when it is legal. -/
def causeOf (cmd a : Nat) : Option Nat :=
  match step (onPorts cmd a) with
  | .next t => t.rsp.map fun y => y.cause.toNat
  | _ => none

/-- A machine just reset with the operand `x`. -/
abbrev st (x : Nat) : State := State.reset.withOperand x

/-- Tables full of zeros. -/
def zeroTables : Config :=
  { Config.default with encLut := Vector.replicate 256 0, decLut := Vector.replicate 256 0 }

/-- A decode table whose every correction is a whole unit. -/
def oversizedTables : Config := { Config.default with decLut := Vector.replicate 256 (2 ^ 24) }

/-- The FLOOR reading of negative codewords. -/
def floorConfig : Config := { Config.default with slogdecNeg := .floor }

/-! ### Decoding: rsv[31:21] q[20:15] p[14:9] wl[8:7] wh[6:5] op[4:0] -/

theorem test_decode_clz : decode 0b00000000000000000000000001000000#32 = .ok (.clz .w32) := by
  decide

theorem test_decode_fls : decode 0b00000000000000000000000001100001#32 = .ok (.fls .w64) := by
  decide

theorem test_decode_log2f : decode 0b00000000000000000000000000100010#32 = .ok (.log2f .w16) := by
  decide

theorem test_decode_bmask : decode 0b00000000000000000011000001000011#32 = .ok (.bmask .w32 24) := by
  decide

theorem test_decode_umin : decode 0b00000000000000000000000001100100#32 = .ok (.umin .w64) := by
  decide

theorem test_decode_umax : decode 0b00000000000000000000000000100101#32 = .ok (.umax .w16) := by
  decide

theorem test_decode_smin : decode 0b00000000000000000000000001000110#32 = .ok (.smin .w32) := by
  decide

theorem test_decode_smax : decode 0b00000000000000000000000000000111#32 = .ok (.smax .w8) := by
  decide

theorem test_decode_pulmaxm : decode 0b00000000000000000000000011101000#32 = .ok (.pulmaxm .w64 .w16) := by
  decide

theorem test_decode_slogmaxm : decode 0b00000000000000000000000101101001#32 = .ok (.slogmaxm .w64 .w32) := by
  decide

theorem test_decode_tofpu : decode 0b00000000000001000000000011001010#32 = .ok (.tofpu .w32 .w16 8) := by
  decide

theorem test_decode_tofps : decode 0b00000000000111111000000001101011#32 = .ok (.tofps .w64 .w8 63) := by
  decide

theorem test_decode_fromfpu : decode 0b00000000000001001000000011001100#32 = .ok (.fromfpu .w32 .w16 9) := by
  decide

theorem test_decode_fromfps : decode 0b00000000000000101000000000101101#32 = .ok (.fromfps .w16 .w8 5) := by
  decide

theorem test_decode_pulenc : decode 0b00000000000000000001010011101110#32 = .ok (.pulenc .w64 .w16 10) := by
  decide

theorem test_decode_puldec : decode 0b00000000000000000000111110001111#32 = .ok (.puldec .w8 .w64 7) := by
  decide

theorem test_decode_slogenc : decode 0b00000000000001100011001101110000#32 = .ok (.slogenc .w64 .w32 25 12) := by
  decide

theorem test_decode_slogdec : decode 0b00000000000000111000100010010001#32 = .ok (.slogdec .w8 .w16 4 7) := by
  decide

theorem test_decode_slogencc : decode 0b00000000000000000011001101110010#32 = .ok (.slogencc .w64 .w32 25 0) := by
  decide

theorem test_decode_slogdecc : decode 0b00000000000000011001011100110011#32 = .ok (.slogdecc .w16 .w32 11 3) := by
  decide

theorem test_decode_pul2pul : decode 0b00000000000001010011010011010100#32 = .ok (.pul2pul .w32 .w16 26 10) := by
  decide

theorem test_decode_slog2slog : decode 0b00000000000001001011001011010101#32 = .ok (.slog2slog .w32 .w16 25 9) := by
  decide

theorem test_decode_pul2slog : decode 0b00000000000011001001010100110110#32 = .ok (.pul2slog .w16 .w32 10 25) := by
  decide

theorem test_decode_slog2pul : decode 0b00000000000001010011001011010111#32 = .ok (.slog2pul .w32 .w16 25 10) := by
  decide

/-- 30_encoding.md R81, R72, R73: words that select no row. -/
theorem test_decode_rejects :
    decode 0b00000000000000000000000000011000#32 = .error .reservedOperation ∧
    decode 0b10000000000000000000000000011111#32 = .error .reservedOperation ∧
    decode 0b00000000001000000000000001000000#32 = .error .reservedField ∧
    decode 0b00000000000000000000001000000001#32 = .error .reservedField := by decide

/-- The table's numbering: `decodeTableWord` cuts at `nbits`. -/
theorem test_decode_table_word : decodeTableWord 32 0x3370 = some (.slogenc .w64 .w32 25 0) ∧
    decodeTableWord 32 0x18 = none ∧ (State.reset.withFetchWord 32 0x3370).cmd = 0x3370#32 := by decide

/-! ### Well-formedness: each check refuses a term (60_exceptions.md R218, R219) -/

theorem test_ill_formed_bmask : (Instr.bmask .w8 8).wellFormed Config.default = false ∧
    (Instr.bmask .w8 7).wellFormed Config.default = true := by decide

theorem test_ill_formed_fixed : (Instr.tofpu .w8 .w16 0).wellFormed Config.default = false ∧
    (Instr.tofpu .w8 .w8 8).wellFormed Config.default = false ∧ (Instr.tofps .w8 .w16 0).wellFormed Config.default = false ∧
    (Instr.fromfpu .w16 .w8 16).wellFormed Config.default = false ∧ (Instr.fromfps .w16 .w32 0).wellFormed Config.default = false ∧
    (Instr.fromfps .w16 .w16 15).wellFormed Config.default = true := by decide

theorem test_ill_formed_pul : (Instr.pulenc .w64 .w16 11).wellFormed Config.default = false ∧
    (Instr.pulenc .w64 .w16 0).wellFormed Config.default = false ∧ (Instr.puldec .w8 .w64 8).wellFormed Config.default = false ∧
    (Instr.puldec .w64 .w16 10).wellFormed Config.default = true := by decide

theorem test_ill_formed_slog : (Instr.slogenc .w64 .w32 26 0).wellFormed Config.default = false ∧
    (Instr.slogdec .w64 .w32 0 0).wellFormed Config.default = false ∧ (Instr.slogencc .w8 .w64 8 0).wellFormed Config.default = false ∧
    (Instr.slogdecc .w8 .w8 4 8).wellFormed Config.default = false ∧ (Instr.slogdecc .w8 .w8 4 7).wellFormed Config.default = true := by
  decide

theorem test_ill_formed_transcoders : (Instr.pul2pul .w8 .w8 0 1).wellFormed Config.default = false ∧
    (Instr.pul2pul .w8 .w8 7 8).wellFormed Config.default = false ∧ (Instr.slog2slog .w8 .w8 7 1).wellFormed Config.default = false ∧
    (Instr.slog2slog .w8 .w8 6 0).wellFormed Config.default = false ∧ (Instr.pul2slog .w8 .w8 7 7).wellFormed Config.default = false ∧
    (Instr.slog2pul .w8 .w8 7 7).wellFormed Config.default = false ∧ (Instr.slog2pul .w8 .w8 6 7).wellFormed Config.default = true := by
  decide

/-! ### Results, from 95_test_vectors.md -/

theorem test_clz : resultOf 0x00000000 0x1F01 = some 0x7 ∧
    resultOf 0x00000060 0x1 = some 0x3F := by decide

theorem test_fls : resultOf 0x00000041 0x0 = some 0x0 ∧
    resultOf 0x00000061 0x8000000000000000 = some 0x40 := by decide

theorem test_log2f : resultOf 0x00000002 0xFF = some 0x7 ∧
    resultOf 0x00000062 0xC350 = some 0xF := by decide

theorem test_bmask : resultOf 0x00000603 0xFFFF = some 0xF ∧
    resultOf 0x00007E63 0x0 = some 0xFFFFFFFFFFFFFFFF := by decide

theorem test_umin : resultOf 0x00000064 0x0 = some 0x1 := by decide

theorem test_umax : resultOf 0x00000025 0x0 = some 0xFFFF := by decide

theorem test_smin : resultOf 0x00000006 0x0 = some 0x80 := by decide

theorem test_smax : resultOf 0x00000047 0x0 = some 0x7FFFFFFF := by decide

theorem test_pulmaxm : resultOf 0x000000E8 0x0 = some 0xA ∧
    resultOf 0x00000188 0x0 = some 0x3D := by decide

theorem test_slogmaxm : resultOf 0x00000169 0x0 = some 0x19 ∧
    resultOf 0x00000069 0x0 = some 0x1 := by decide

theorem test_tofpu : resultOf 0x000400CA 0xABCD1234 = some 0x123400 ∧
    resultOf 0x0002000A 0x1F = some 0xF0 := by decide

theorem test_tofps : resultOf 0x000400CB 0xFFFE = some 0xFFFFFE00 ∧
    resultOf 0x0006002B 0x7F = some 0xF000 := by decide

theorem test_fromfpu : resultOf 0x000400CC 0x12345678 = some 0x3456 ∧
    resultOf 0x000F814C 0xFFFFFFFF = some 0x1 := by decide

theorem test_fromfps : resultOf 0x000400CD 0xFFFFFE80 = some 0xFFFE ∧
    resultOf 0x000F814D 0x80000000 = some 0xFFFFFFFF := by decide

theorem test_pulenc : resultOf 0x000014EE 0xC350 = some 0x3E1A ∧
    resultOf 0x000014EE 0xFFFFFFFFFFFFFFFF = some 0xFFFF := by decide

theorem test_puldec : resultOf 0x000014EF 0x401 = some 0x2 ∧
    resultOf 0x000014CF 0x8000 = some 0xFFFFFFFF := by decide

theorem test_slogenc : resultOf 0x000CB370 0x1800000 = some 0xFF000000 ∧
    resultOf 0x00003370 0xF4240 = some 0x27D09000 := by decide

theorem test_slogdec : resultOf 0x000CB371 0xFF000000 = some 0x3000000 ∧
    resultOf 0x00003371 0xFE000000 = some 0x0 := by decide

theorem test_slogencc : resultOf 0x00003372 0x3E8 = some 0x13EFF3E0 ∧
    resultOf 0x000073F2 0x3 = some 0x32C800000000000 := by decide

theorem test_slogdecc : resultOf 0x00003373 0x29DFE7C0 = some 0x1EA7F3 ∧
    resultOf 0x001FB373 0x2000000 = some 0xFFFFFFFFFFFFFFFF := by decide

theorem test_pul2pul : resultOf 0x000534D4 0x3E1A8000 = some 0x3E1A ∧
    resultOf 0x00020834 0x123 = some 0x23 := by decide

theorem test_slog2slog : resultOf 0x00010815 0xD8 = some 0xF6 ∧
    resultOf 0x00021235 0xF000 = some 0x80 := by decide

theorem test_pul2slog : resultOf 0x000C9536 0x3E1A = some 0x1F0D0000 ∧
    resultOf 0x000C9536 0x1 = some 0x80000000 := by decide

theorem test_slog2pul : resultOf 0x000532D7 0xFF000000 = some 0x1 ∧
    resultOf 0x00028817 0x7F = some 0xFE := by decide

/-- 44_slog_codec.md R163: FLOOR, the other setting of `SLOGDEC_NEG`. -/
theorem test_slogdec_floor : exec (.slogdec .w8 .w8 4 4) { st 0xD8 with cfg := floorConfig } =
    .next (legalNext { st 0xD8 with cfg := floorConfig } 3) := by rfl

/-- 92_eei_decisions.md D7: another `F_MAX` moves the bound of 42_fixed_point.md R120 and of 44_slog_codec.md
R160; beyond the width the pseudocode of R121 shifts every bit out. -/
theorem test_f_max : (Instr.tofpu .w8 .w8 4).wellFormed { Config.default with fMax := ⟨3, 15, 31, 63⟩ } = false ∧
    (Instr.slogenc .w8 .w8 4 8).wellFormed { Config.default with fMax := ⟨8, 15, 31, 63⟩ } = true ∧
    exec (.tofpu .w8 .w8 8) { st 255 with cfg := { Config.default with fMax := ⟨8, 15, 31, 63⟩ } } =
      .next (legalNext { st 255 with cfg := { Config.default with fMax := ⟨8, 15, 31, 63⟩ } } 0) :=
  ⟨by decide, by decide, rfl⟩

/-! ### Illegal requests, from 60_exceptions.md R219 -/

theorem test_cause_one : causeOf 0x00000018 0 = some 1 ∧ causeOf 0x8000001F 0 = some 1 := by decide

theorem test_cause_two : causeOf 0x00200040 0 = some 2 ∧ causeOf 0x00000201 0 = some 2 ∧
    causeOf 0x000094EE 0 = some 2 ∧ causeOf 0x00000080 0 = some 2 ∧ causeOf 0x00009003 0 = some 2 := by decide

theorem test_cause_three : causeOf 0x00001003 0 = some 3 ∧ causeOf 0x0000008A 0 = some 3 ∧
    causeOf 0x0004000A 0 = some 3 ∧ causeOf 0x000016EE 0 = some 3 ∧ causeOf 0x000000EE 0 = some 3 ∧
    causeOf 0x0000118E 0 = some 3 ∧ causeOf 0x00003570 0 = some 3 ∧ causeOf 0x00008E15 0 = some 3 ∧
    causeOf 0x00008014 0 = some 3 := by decide

theorem test_cause_four : causeOf 0x00000040 0 = some 4 ∧ causeOf 0x00000000 0x100 = some 4 ∧
    causeOf 0x00000062 0 = some 4 ∧ causeOf 0x00000041 0 = some 0 := by decide

/-- 10_state.md R27, entries read off the printed tables. -/
theorem test_tables : tableEntry State.reset.cfg.encLut 244 = 260592 ∧
    tableEntry State.reset.cfg.encLut 128 = 1458176 ∧ tableEntry State.reset.cfg.decLut 239 = 357544 ∧
    tableEntry State.reset.cfg.decLut 255 = 22440 := by decide

/-! ### Witnesses: the hypotheses of every statement, each clause at a boundary -/

theorem witness_DecodingIsInjectiveAndUnusedFieldsAreCauseTwo :
    decode 0#32 = .ok (.clz .w8) ∧ cmdField 0x80#32 0 5 < 24 ∧ cmdField 0x80#32 21 11 = 0 ∧
    ¬ MatchesARow 0x80#32 := by
  unfold MatchesARow; decide

theorem witness_DecoderAcceptsExactlyTheOpcodeTable :
    MatchesARow 0x17#32 ∧ 24 ≤ cmdField 0x18#32 0 5 ∧ cmdField 0x280#32 0 5 < 24 ∧ ¬ MatchesARow 0x280#32 := by
  unfold MatchesARow; decide

theorem witness_StepRunsTheDecodedOperation :
    decode (onPorts 0x3370 1000).cmd = .ok (.slogenc .w64 .w32 25 0) := by decide

theorem witness_ReservedOperationIsCauseOne :
    24 ≤ cmdField (onPorts 0x18 0).cmd 0 5 ∧ 24 ≤ cmdField (onPorts 0xFFFFFFFF 0).cmd 0 5 := by decide

theorem witness_ReservedBitsAreCauseTwo :
    (cmdField (onPorts 0x200000 0).cmd 21 11 ≠ 0 ∧ ¬ 24 ≤ cmdField (onPorts 0x200000 0).cmd 0 5) ∧
    (cmdField (onPorts 0x80000018 0).cmd 21 11 ≠ 0 ∧ 24 ≤ cmdField (onPorts 0x80000018 0).cmd 0 5) := by decide

theorem witness_EveryRequestGetsTheCauseOfTheLegalityTable :
    requestCause (fMaxAt Config.default) 0x41 0 = 0 ∧ requestCause (fMaxAt Config.default) 0x18 0 = 1 ∧
    requestCause (fMaxAt Config.default) 0x80 0 = 2 ∧ requestCause (fMaxAt Config.default) 0x4000A 0 = 3 ∧
    requestCause (fMaxAt Config.default) 0x40 0 = 4 ∧ (onPorts 0x4000A 0).cfg.fMax = FMax.default := by
  decide

theorem witness_EveryStepKeepsTheInvariant :
    State.Inv { State.reset with cfg := zeroTables } ∧
    ∃ t, step { State.reset with cfg := zeroTables } = .next t := by
  refine ⟨⟨fun y h => (by cases h), ?_, ?_, ?_⟩, _, rfl⟩
  · simp [zeroTables, tableEntry]
  · simp [zeroTables, tableEntry]
  · intro M f _
    have h : ∀ i, tableEntry (Vector.replicate 256 0) i = 0 := fun i => by simp [tableEntry]
    simp [dcorr, zeroTables, h, scaleM]

theorem witness_RepeatingALegalRequestChangesNothing : ∃ t y,
    step (onPorts 0x41 0) = .next t ∧ t.rsp = some y ∧ y.ill = false := ⟨_, _, rfl, rfl, rfl⟩

theorem witness_ResponseDependsOnSignificantRequestBitsOnly :
    (onPorts 0x1 0x1F80).cmd = (onPorts 0x1 0x80).cmd ∧ (onPorts 0x1 0x1F80).cfg = (onPorts 0x1 0x80).cfg ∧
    ∀ i, decode (onPorts 0x1 0x1F80).cmd = .ok i →
      (onPorts 0x1 0x1F80).a.toNat % 2 ^ operandBits i = (onPorts 0x1 0x80).a.toNat % 2 ^ operandBits i := by
  refine ⟨rfl, rfl, fun i h => ?_⟩
  have e : decode (onPorts 0x1 0x1F80).cmd = .ok (.fls .w8) := by decide
  rw [e] at h
  cases h
  decide

theorem witness_ResultBitsAboveTheWidthAreZero : ∃ t y,
    exec (.fls .w64) (st 0x8000000000000000) = .next t ∧ t.rsp = some y ∧ y.ill = false :=
  ⟨_, _, rfl, rfl, rfl⟩

theorem witness_ResetLeavesTheDefaultTablesAndNoResponse :
    (1 : Fin 256).val + (255 : Fin 256).val = 256 ∧ (128 : Fin 256).val + (128 : Fin 256).val = 256 := by decide

theorem witness_ClzCountsLeadingZeros :
    (st 1).a.toNat % 2 ^ Width.w8.bits ≠ 0 ∧ (st 0x80).a.toNat % 2 ^ Width.w8.bits ≠ 0 ∧
    (st 0x100).a.toNat % 2 ^ Width.w8.bits = 0 := by decide

theorem witness_FlsFindsTheLastSetBit :
    (st 0x100).a.toNat % 2 ^ Width.w8.bits = 0 ∧ (st 1).a.toNat % 2 ^ Width.w8.bits ≠ 0 ∧
    (st 0xFF).a.toNat % 2 ^ Width.w8.bits ≠ 0 := by decide

theorem witness_Log2fIsTheFloorOfTheLogarithm :
    (st 1).a.toNat % 2 ^ Width.w64.bits ≠ 0 ∧ (st 0x8000000000000000).a.toNat % 2 ^ Width.w64.bits ≠ 0 ∧
    (st 0).a.toNat % 2 ^ Width.w64.bits = 0 := by decide

theorem witness_BmaskSetsTheLowBits :
    (7 : Param).toNat ≤ Width.w8.bits - 1 ∧ Width.w8.bits ≤ (8 : Param).toNat ∧
    (63 : Param).toNat ≤ Width.w64.bits - 1 := by decide

theorem witness_LegalParametersAtTheDefaultFMax :
    State.reset.cfg.fMax = FMax.default ∧ 2 ^ 6 = Width.w64.bits ∧
    (Width.w64.bits ≤ Width.w64.bits ∧ (63 : Param).toNat ≤ Width.w64.bits - 1) ∧
    2 ^ 3 = Width.w8.bits ∧ ¬ (Width.w8.bits ≤ Width.w8.bits ∧ (8 : Param).toNat ≤ Width.w8.bits - 1) ∧
    ¬ (Width.w16.bits ≤ Width.w8.bits ∧ (0 : Param).toNat ≤ Width.w8.bits - 1) ∧
    (1 ≤ (25 : Param).toNat ∧ (25 : Param).toNat ≤ min (Width.w32.bits - 1 - 6) (Width.w64.bits - 1) ∧
      (63 : Param).toNat ≤ Width.w64.bits - 1) ∧
    ¬ (26 : Param).toNat ≤ min (Width.w32.bits - 1 - 6) (Width.w64.bits - 1) ∧
    ¬ 1 ≤ (0 : Param).toNat := by decide

theorem witness_BitPrimitiveLaws :
    (st 0x80).a.toNat % 2 ^ Width.w8.bits ≠ 0 ∧
    (st 0x100).a.toNat % 2 ^ Width.w8.bits ≤ (st 1).a.toNat % 2 ^ Width.w8.bits := by decide

theorem witness_TofpuIsTheShiftInHBits :
    FixedParams Config.default .w8 .w8 (7 : Param).toNat ∧ FixedParams Config.default .w64 .w8 (0 : Param).toNat ∧
    ¬ FixedParams Config.default .w8 .w8 (8 : Param).toNat ∧ ¬ FixedParams Config.default .w8 .w16 (0 : Param).toNat := by decide

theorem witness_TofpsIsTheSignedShiftInHBits :
    FixedParams Config.default .w8 .w8 (7 : Param).toNat ∧ FixedParams Config.default .w64 .w8 (0 : Param).toNat ∧
    ¬ FixedParams Config.default .w8 .w8 (8 : Param).toNat ∧ ¬ FixedParams Config.default .w8 .w16 (0 : Param).toNat := by decide

theorem witness_FromfpuIsTheLogicalShift :
    FixedParams Config.default .w8 .w8 (7 : Param).toNat ∧ FixedParams Config.default .w64 .w8 (0 : Param).toNat ∧
    ¬ FixedParams Config.default .w8 .w8 (8 : Param).toNat ∧ ¬ FixedParams Config.default .w8 .w16 (0 : Param).toNat := by decide

theorem witness_FromfpsIsTheArithmeticShift :
    FixedParams Config.default .w8 .w8 (7 : Param).toNat ∧ FixedParams Config.default .w64 .w8 (0 : Param).toNat ∧
    ¬ FixedParams Config.default .w8 .w8 (8 : Param).toNat ∧ ¬ FixedParams Config.default .w8 .w16 (0 : Param).toNat := by decide

theorem witness_FixedPointRoundTripWhereExact :
    FixedParams Config.default .w32 .w16 (16 : Param).toNat ∧ (16 : Param).toNat ≤ Width.w32.bits - 1 ∧
    (st 0xFFFF).a.toNat % 2 ^ Width.w16.bits < 2 ^ (Width.w32.bits - (16 : Param).toNat) ∧
    -(2 ^ (Width.w32.bits - 1 - (16 : Param).toNat)) ≤ signedAt Width.w16.bits (st 0x8000).a.toNat ∧
    signedAt Width.w16.bits (st 0x7FFF).a.toNat < 2 ^ (Width.w32.bits - 1 - (16 : Param).toNat) ∧
    FixedParams Config.default .w8 .w8 (4 : Param).toNat ∧
    ¬ (st 0x10).a.toNat % 2 ^ Width.w8.bits < 2 ^ (Width.w8.bits - (4 : Param).toNat) := by decide

theorem witness_PulencGivesExponentAndFraction :
    PulParams .w64 .w16 (10 : Param).toNat ∧ (st 0).a.toNat % 2 ^ Width.w64.bits ≤ 1 ∧
    (st 1).a.toNat % 2 ^ Width.w64.bits ≤ 1 ∧ 2 ≤ (st 2).a.toNat % 2 ^ Width.w64.bits ∧
    ¬ PulParams .w64 .w16 (11 : Param).toNat ∧ ¬ PulParams .w64 .w16 (0 : Param).toNat ∧
    ¬ PulParams .w8 .w64 (8 : Param).toNat := by decide

theorem witness_PuldecGivesTheScaledMantissa :
    PulParams .w32 .w16 (10 : Param).toNat ∧ (st 1).a.toNat % 2 ^ Width.w16.bits = 1 ∧
    ((st 0x8000).a.toNat % 2 ^ Width.w16.bits = 32 * 2 ^ (10 : Param).toNat + 0 ∧
      (st 0x8000).a.toNat % 2 ^ Width.w16.bits ≠ 1 ∧ Width.w32.bits ≤ 32) ∧
    ((st 0x7FFF).a.toNat % 2 ^ Width.w16.bits = 31 * 2 ^ (10 : Param).toNat + 0x3FF ∧
      0x3FF < 2 ^ (10 : Param).toNat ∧ (st 0x7FFF).a.toNat % 2 ^ Width.w16.bits ≠ 1 ∧ 31 < Width.w32.bits) ∧
    ((st 2).a.toNat % 2 ^ Width.w16.bits = 0 * 2 ^ (10 : Param).toNat + 2) ∧
    ¬ PulParams .w32 .w16 (12 : Param).toNat := by decide

theorem witness_PulRoundTripKeepsTheTopBits :
    PulParams .w64 .w16 (10 : Param).toNat ∧ 63 < Width.w64.bits := by decide

theorem witness_PulencIsMonotone :
    PulParams .w64 .w16 (10 : Param).toNat ∧ 1 ≤ (st 1).a.toNat % 2 ^ Width.w64.bits ∧
    (st 1).a.toNat % 2 ^ Width.w64.bits ≤ (st 2).a.toNat % 2 ^ Width.w64.bits := by decide

theorem witness_SlogencGivesExponentAndFraction :
    SlogParams Config.default .w64 .w32 (25 : Param).toNat (63 : Param).toNat ∧ (st 0).a.toNat % 2 ^ Width.w64.bits = 0 ∧
    (st 1).a.toNat % 2 ^ Width.w64.bits ≠ 0 ∧ ¬ SlogParams Config.default .w64 .w32 (26 : Param).toNat (0 : Param).toNat ∧
    ¬ SlogParams Config.default .w8 .w8 (4 : Param).toNat (8 : Param).toNat := by decide

theorem witness_SlogdecGivesTheScaledMantissa :
    SlogParams Config.default .w8 .w8 (4 : Param).toNat (4 : Param).toNat ∧
    (st 0x80).a.toNat % 2 ^ Width.w8.bits = 2 ^ (Width.w8.bits - 1) ∧
    (st 0x81).a.toNat % 2 ^ Width.w8.bits ≠ 2 ^ (Width.w8.bits - 1) ∧
    ¬ SlogParams Config.default .w8 .w8 (5 : Param).toNat (4 : Param).toNat := by decide

theorem witness_SlogenccAddsTheClampedCorrection :
    SlogParams Config.default .w64 .w32 (25 : Param).toNat (0 : Param).toNat ∧ (st 0).a.toNat % 2 ^ Width.w64.bits = 0 ∧
    (st 0xFFFFFFFFFFFFFFFF).a.toNat % 2 ^ Width.w64.bits ≠ 0 ∧
    ¬ SlogParams Config.default .w64 .w32 (0 : Param).toNat (0 : Param).toNat := by decide

theorem witness_SlogdeccSubtractsTheCorrection :
    SlogParams Config.default .w64 .w32 (25 : Param).toNat (0 : Param).toNat ∧
    (st 0x80000000).a.toNat % 2 ^ Width.w32.bits = 2 ^ (Width.w32.bits - 1) ∧
    (st 0x29DFE7C0).a.toNat % 2 ^ Width.w32.bits ≠ 2 ^ (Width.w32.bits - 1) ∧
    PartsOf (st 0x29DFE7C0).cfg.slogdecNeg (25 : Param).toNat
      (signedAt Width.w32.bits (st 0x29DFE7C0).a.toNat) 20 0x1DFE7C0 ∧
    correction (st 0x29DFE7C0).cfg.decLut (st 0x29DFE7C0).cfg.lutQ 0x1DFE7C0 (25 : Param).toNat ≤ 0x1DFE7C0 ∧
    ¬ SlogParams Config.default .w64 .w32 (26 : Param).toNat (0 : Param).toNat := by
  refine ⟨by decide, by decide, by decide, ⟨by decide, 20, by decide, by decide⟩, by decide, by decide⟩

theorem witness_SlogdeccClampsAnOversizedCorrection :
    SlogParams Config.default .w8 .w8 (4 : Param).toNat (4 : Param).toNat ∧
    (st 0xD8).a.toNat % 2 ^ Width.w8.bits ≠ 2 ^ (Width.w8.bits - 1) ∧
    PartsOf oversizedTables.slogdecNeg (4 : Param).toNat (signedAt Width.w8.bits (st 0xD8).a.toNat) (-2) 8 ∧
    8 < correction oversizedTables.decLut oversizedTables.lutQ 8 (4 : Param).toNat := by
  refine ⟨by decide, by decide, ⟨by decide, 2, by decide, by decide⟩, by decide⟩

theorem witness_CorrectionsAreTheScaledTableEntries :
    0 < 2 ^ 1 ∧ 1 < 2 ^ 1 ∧ 0x1FFFFFF < 2 ^ 25 := by decide

theorem witness_PowersOfTwoSurviveTheSlogRoundTrip :
    SlogParams Config.default .w64 .w32 (25 : Param).toNat (63 : Param).toNat ∧ (63 : Param).toNat ≤ Width.w64.bits - 1 ∧
    63 < Width.w64.bits ∧
    (st 0x8000000000000000).a.toNat % 2 ^ Width.w64.bits = 2 ^ 63 ∧
    (st 1).a.toNat % 2 ^ Width.w64.bits = 2 ^ 0 ∧
    (st 1).cfg.encLut[0] = 0 ∧ (st 1).cfg.decLut[0] = 0 := by
  refine ⟨by decide, by decide, by decide, by decide, by decide, ?_, ?_⟩ <;>
    simp [st, State.withOperand, State.reset, Config.default, Config.quadraticLut]

theorem witness_SlogRoundTripKeepsTheTopBits :
    SlogParams Config.default .w8 .w8 (4 : Param).toNat (4 : Param).toNat ∧
    (4 : Param).toNat ≤ Width.w8.bits - 1 ∧ 2 ^ (4 : Param).toNat ≤ (st 16).a.toNat % 2 ^ Width.w8.bits ∧
    ¬ 2 ^ (4 : Param).toNat ≤ (st 3).a.toNat % 2 ^ Width.w8.bits ∧ floorConfig.slogdecNeg = .floor := by decide

theorem witness_SlogencIsMonotone :
    SlogParams Config.default .w8 .w8 (4 : Param).toNat (7 : Param).toNat ∧
    (st 255).cfg.fMax = (st 1).cfg.fMax ∧ (7 : Param).toNat ≤ Width.w8.bits - 1 ∧
    (st 1).a.toNat % 2 ^ Width.w8.bits ≠ 0 ∧ (st 1).a.toNat % 2 ^ Width.w8.bits ≤ (st 255).a.toNat % 2 ^ Width.w8.bits := by decide

theorem witness_SlogenccIsMonotoneWithinABucket :
    SlogParams Config.default .w64 .w32 (25 : Param).toNat (0 : Param).toNat ∧
    (0 : Param).toNat ≤ Width.w64.bits - 1 ∧ (st 0x1C7FFFFFFFE).a.toNat % 2 ^ Width.w64.bits ≠ 0 ∧
    (st 0x1C7FFFFFFFE).a.toNat % 2 ^ Width.w64.bits ≤ (st 0x1C7FFFFFFFF).a.toNat % 2 ^ Width.w64.bits ∧
    ((st 0x1C7FFFFFFFE).a.toNat % 2 ^ Width.w64.bits).log2 =
      ((st 0x1C7FFFFFFFF).a.toNat % 2 ^ Width.w64.bits).log2 ∧
    idx8 (topFraction (25 : Param).toNat ((st 0x1C7FFFFFFFE).a.toNat % 2 ^ Width.w64.bits)) (25 : Param).toNat =
      idx8 (topFraction (25 : Param).toNat ((st 0x1C7FFFFFFFF).a.toNat % 2 ^ Width.w64.bits))
        (25 : Param).toNat ∧
    (st 0x1C7FFFFFFFE).cfg = (st 0x1C7FFFFFFFF).cfg := by
  refine ⟨by decide, by decide, by decide, by decide, by decide, by decide, rfl⟩

theorem witness_SlogWordOfAnIntegerIsItsPulWord :
    SlogParams Config.default .w64 .w32 (25 : Param).toNat 0 ∧ 1 ≤ (st 1).a.toNat % 2 ^ Width.w64.bits := by decide

theorem witness_SlogdecReadingsAgreeOnNonNegativeAndZeroMantissa :
    SlogParams Config.default .w8 .w8 (4 : Param).toNat (4 : Param).toNat ∧ 0 ≤ signedAt Width.w8.bits (st 0x7F).a.toNat ∧
    signedAt Width.w8.bits (st 0xF0).a.toNat < 0 ∧ (st 0xF0).a.toNat % 2 ^ (4 : Param).toNat = 0 := by decide

theorem witness_Pul2pulRealigns :
    (PulSide .w8 (7 : Param).toNat ∧ PulSide .w8 (1 : Param).toNat) ∧
    (st 1).a.toNat % 2 ^ Width.w8.bits = 1 ∧ (st 0).a.toNat % 2 ^ Width.w8.bits ≠ 1 ∧
    ¬ (PulSide .w8 (0 : Param).toNat ∧ PulSide .w8 (1 : Param).toNat) ∧
    ¬ (PulSide .w8 (7 : Param).toNat ∧ PulSide .w8 (8 : Param).toNat) := by decide

theorem witness_Slog2slogRealigns :
    (SlogSide .w8 (6 : Param).toNat ∧ SlogSide .w8 (1 : Param).toNat) ∧
    (st 0x80).a.toNat % 2 ^ Width.w8.bits = 2 ^ (Width.w8.bits - 1) ∧
    (st 0x81).a.toNat % 2 ^ Width.w8.bits ≠ 2 ^ (Width.w8.bits - 1) ∧
    ¬ (SlogSide .w8 (7 : Param).toNat ∧ SlogSide .w8 (1 : Param).toNat) := by decide

theorem witness_Pul2slogRealigns :
    (PulSide .w8 (7 : Param).toNat ∧ SlogSide .w8 (6 : Param).toNat) ∧
    (st 1).a.toNat % 2 ^ Width.w8.bits = 1 ∧ (st 2).a.toNat % 2 ^ Width.w8.bits ≠ 1 ∧
    ¬ (PulSide .w8 (7 : Param).toNat ∧ SlogSide .w8 (7 : Param).toNat) := by decide

theorem witness_Slog2pulRealigns :
    (SlogSide .w8 (6 : Param).toNat ∧ PulSide .w8 (7 : Param).toNat) ∧
    signedAt Width.w8.bits (st 0x80).a.toNat < 0 ∧ signedAt Width.w8.bits (st 0xFF).a.toNat < 0 ∧
    0 ≤ signedAt Width.w8.bits (st 0).a.toNat ∧
    ¬ (SlogSide .w8 (7 : Param).toNat ∧ PulSide .w8 (7 : Param).toNat) := by decide

theorem witness_TranscodeIsExactWhereItFits :
    (PulSide .w8 (2 : Param).toNat ∧ PulSide .w8 (2 : Param).toNat ∧ (st 255).a.toNat % 2 ^ Width.w8.bits ≠ 1 ∧
      (255 : Int) = realigned ((st 255).a.toNat % 2 ^ Width.w8.bits : Nat) (2 : Param).toNat (2 : Param).toNat ∧
      (255 : Int) < 2 ^ Width.w8.bits) ∧
    (SlogSide .w8 (4 : Param).toNat ∧ SlogSide .w8 (4 : Param).toNat ∧
      (st 0x81).a.toNat % 2 ^ Width.w8.bits ≠ 2 ^ (Width.w8.bits - 1) ∧
      (-127 : Int) = realigned (signedAt Width.w8.bits (st 0x81).a.toNat) (4 : Param).toNat (4 : Param).toNat ∧
      -(2 ^ (Width.w8.bits - 1)) < (-127 : Int) ∧ (-127 : Int) < 2 ^ (Width.w8.bits - 1)) ∧
    (PulSide .w16 (10 : Param).toNat ∧ SlogSide .w16 (10 : Param).toNat ∧
      (st 0x7FFF).a.toNat % 2 ^ Width.w16.bits ≠ 1 ∧
      (0x7FFF : Int) =
        realigned ((st 0x7FFF).a.toNat % 2 ^ Width.w16.bits : Nat) (10 : Param).toNat (10 : Param).toNat ∧
      -(2 ^ (Width.w16.bits - 1)) < (0x7FFF : Int) ∧ (0x7FFF : Int) < 2 ^ (Width.w16.bits - 1)) ∧
    (SlogSide .w8 (4 : Param).toNat ∧ PulSide .w8 (5 : Param).toNat ∧
      0 ≤ signedAt Width.w8.bits (st 0x7F).a.toNat ∧
      (0xFE : Int) = realigned (signedAt Width.w8.bits (st 0x7F).a.toNat) (4 : Param).toNat (5 : Param).toNat ∧
      (0 : Int) ≤ 0xFE ∧ (0xFE : Int) < 2 ^ Width.w8.bits) := by decide

theorem witness_TranscodersPreserveTheZeroSentinels :
    PulSide .w8 (7 : Param).toNat ∧ SlogSide .w8 (6 : Param).toNat ∧ (st 1).a.toNat % 2 ^ Width.w8.bits = 1 ∧
    (st 0x80).a.toNat % 2 ^ Width.w8.bits = 2 ^ (Width.w8.bits - 1) := by decide

theorem witness_Pul2pulOfAnEncodingIsTheNarrowerEncoding :
    PulParams .w64 .w32 (26 : Param).toNat ∧ PulParams .w64 .w16 (10 : Param).toNat ∧
    (10 : Param).toNat ≤ (26 : Param).toNat := by decide

theorem witness_Slog2slogOfAnEncodingIsTheNarrowerEncoding :
    SlogParams Config.default .w64 .w32 (25 : Param).toNat (25 : Param).toNat ∧
    SlogParams Config.default .w64 .w16 (9 : Param).toNat (25 : Param).toNat ∧
    (25 : Param).toNat ≤ Width.w64.bits - 1 ∧ (9 : Param).toNat ≤ (25 : Param).toNat := by decide

theorem witness_PulAndSlogEncodingsTranscodeToEachOther :
    (9 : Param).toNat ≤ (10 : Param).toNat ∧ PulParams .w64 .w16 (10 : Param).toNat ∧
    SlogParams Config.default .w64 .w16 (9 : Param).toNat 0 ∧ (10 : Param).toNat ≤ (25 : Param).toNat ∧
    SlogParams Config.default .w64 .w32 (25 : Param).toNat 0 := by decide

theorem witness_InBandConditionsAreResults :
    (st 0x100).a.toNat % 2 ^ Width.w8.bits = 0 ∧ PulParams .w8 .w8 (5 : Param).toNat ∧
    SlogParams Config.default .w8 .w8 (4 : Param).toNat (7 : Param).toNat ∧
    (PulParams .w32 .w16 (10 : Param).toNat ∧ (st 0x8000).a.toNat % 2 ^ Width.w16.bits ≠ 1 ∧
      Width.w32.bits * 2 ^ (10 : Param).toNat ≤ (st 0x8000).a.toNat % 2 ^ Width.w16.bits) ∧
    (SlogParams Config.default .w64 .w32 (25 : Param).toNat (63 : Param).toNat ∧
      (st 0x2000000).a.toNat % 2 ^ Width.w32.bits ≠ 2 ^ (Width.w32.bits - 1) ∧
      PartsOf (st 0x2000000).cfg.slogdecNeg (25 : Param).toNat
        (signedAt Width.w32.bits (st 0x2000000).a.toNat) 1 0 ∧
      (Width.w64.bits : Int) ≤ 1 + (63 : Param).toNat) ∧
    (SlogSide .w8 (6 : Param).toNat ∧ PulSide .w8 (7 : Param).toNat ∧
      signedAt Width.w8.bits (st 0xFF).a.toNat < 0) := by
  refine ⟨by decide, by decide, by decide, by decide,
    ⟨by decide, by decide, ⟨by decide, 1, by decide, by decide⟩, by decide⟩, by decide⟩

theorem witness_UnderflowExactlyAtNegativeScaledExponent :
    SlogParams Config.default .w8 .w8 (4 : Param).toNat (1 : Param).toNat ∧
    SlogParams Config.default .w8 .w8 (4 : Param).toNat (0 : Param).toNat ∧
    (st 0xF0).a.toNat % 2 ^ Width.w8.bits ≠ 2 ^ (Width.w8.bits - 1) ∧
    PartsOf (st 0xF0).cfg.slogdecNeg (4 : Param).toNat (signedAt Width.w8.bits (st 0xF0).a.toNat) (-1) 0 ∧
    (-1 : Int) + (0 : Param).toNat < 0 ∧ ¬ (-1 : Int) + (1 : Param).toNat < 0 := by
  refine ⟨by decide, by decide, by decide, ⟨by decide, 1, by decide, by decide⟩, by decide, by decide⟩

end Sys2Proof.Tests
end

section
/-! SUPPORT. Noninterference of a response (00_scope.md R11; 10_state.md R24; 30_encoding.md R74): the answer
of an operation is a function of the configuration and of the operand bits it reads. Each shared end of a
meaning gives the same answer for equal arguments, whatever the state it ends in; so does each operation,
and the step, which adds only the decoder. -/

namespace Sys2Proof.Machine

/-- A word that decodes is answered by its operation (10_state.md R31). -/
theorem step_of_decode_ok {s : State} {i : Instr} (h : decode s.cmd = .ok i) : step s = exec i s := by
  simp [step, State.fetch, h]

/-- A word that does not decode is answered with the decoder's cause (60_exceptions.md R212). -/
theorem step_of_decode_error {s : State} {c : Cause} (h : decode s.cmd = .error c) :
    step s = raise c s := by
  simp [step, State.fetch, h]

/-- Equal patterns have equal signed readings. -/
theorem State.operandS_congr {s s' : State} {w : Width} (h : s.operand w = s'.operand w) :
    s.operandS w = s'.operandS w :=
  congrArg (sint w.bits) h

/-- Two results are next states whose responses agree in all that is specified. -/
def SameAnswer (x x' : Result) : Prop :=
  ∃ t t' y y', x = .next t ∧ x' = .next t' ∧ t.rsp = some y ∧ t'.rsp = some y' ∧ SameResponse y y'

section
variable {s s' : State}

theorem SameAnswer.answer {v v' : Nat} (hv : v = v') :
    SameAnswer (Machine.answer v s) (Machine.answer v' s') := by
  subst hv
  exact ⟨_, _, _, _, rfl, rfl, rfl, rfl, rfl, rfl, fun _ => rfl⟩

/-- The two draws of `r` may differ: nothing is specified of `r` when `ill` is set. -/
theorem SameAnswer.raise (c : Cause) : SameAnswer (Machine.raise c s) (Machine.raise c s') :=
  ⟨_, _, _, _, rfl, rfl, rfl, rfl, rfl, rfl, fun legal => nomatch legal⟩

theorem SameAnswer.answerWhen {b b' : Bool} {v v' : Nat} (hb : b = b') (hv : v = v') :
    SameAnswer (Machine.answerWhen b v s) (Machine.answerWhen b' v' s') := by
  subst hb
  cases b with
  | true => exact .answer hv
  | false => exact .raise .parameterRange

theorem SameAnswer.answerNonzero {x x' v v' : Nat} (hx : x = x') (hv : v = v') :
    SameAnswer (Machine.answerNonzero x v s) (Machine.answerNonzero x' v' s') := by
  subst hx
  cases x with
  | zero => exact .raise .operandRange
  | succ n => exact .answer hv

/-- Every operation: its answer depends on the configuration and on the operand at the width it reads. An
operation without an operand reads no width, so `hop` then says nothing. -/
theorem exec_sameAnswer (i : Instr) (hcfg : s.cfg = s'.cfg)
    (hop : ∀ w : Width, w.bits = operandBits i → s.operand w = s'.operand w) :
    SameAnswer (exec i s) (exec i s') := by
  cases i with
  | umin w | umax w | smin w | smax w | pulmaxm h l | slogmaxm h l => exact .answer rfl
  | bmask w hi => exact .answerWhen rfl rfl
  | fls w => exact .answer (by rw [hop w rfl])
  | clz w | log2f w => exact .answerNonzero (hop w rfl) (by rw [hop w rfl])
  | tofpu h l f => exact .answerWhen (by rw [hcfg]) (by rw [hop l rfl])
  | tofps h l f => exact .answerWhen (by rw [hcfg]) (by rw [State.operandS_congr (hop l rfl)])
  | fromfpu h l f => exact .answerWhen (by rw [hcfg]) (by rw [hop h rfl])
  | fromfps h l f => exact .answerWhen (by rw [hcfg]) (by rw [State.operandS_congr (hop h rfl)])
  | pulenc h l m => exact .answerWhen rfl (by rw [hop h rfl])
  | puldec h l m => exact .answerWhen rfl (by rw [hop l rfl])
  | slogenc h l m f => exact .answerWhen (by rw [hcfg]) (by rw [hop h rfl])
  | slogencc h l m f => exact .answerWhen (by rw [hcfg]) (by rw [hcfg, hop h rfl])
  | slogdec h l m f | slogdecc h l m f => exact .answerWhen (by rw [hcfg]) (by rw [hcfg, hop l rfl])
  | pul2pul li lo mi mo | pul2slog li lo mi mo => exact .answerWhen rfl (by rw [hop li rfl])
  | slog2slog li lo mi mo =>
    exact .answerWhen rfl (by rw [hop li rfl, State.operandS_congr (hop li rfl)])
  | slog2pul li lo mi mo => exact .answerWhen rfl (by rw [State.operandS_congr (hop li rfl)])

/-- The step: `hop` is asked only of a word that decodes, a rejected one being answered without its
operand. -/
theorem step_sameAnswer (hcmd : s.cmd = s'.cmd) (hcfg : s.cfg = s'.cfg)
    (hop : ∀ i, decode s.cmd = .ok i →
      s.a.toNat % 2 ^ operandBits i = s'.a.toNat % 2 ^ operandBits i) :
    SameAnswer (step s) (step s') := by
  cases hd : decode s.cmd with
  | error c =>
    rw [step_of_decode_error hd, step_of_decode_error (hcmd ▸ hd)]
    exact .raise c
  | ok i =>
    rw [step_of_decode_ok hd, step_of_decode_ok (hcmd ▸ hd)]
    refine exec_sameAnswer i hcfg fun w hw => ?_
    rw [State.operand, State.operand, hw]
    exact hop i hd

end

/-- Settles O14: the operation's answer is a function of what the two states share. -/
theorem responseDependsOnSignificantRequestBitsOnly :
    Obligations.ResponseDependsOnSignificantRequestBitsOnly :=
  fun _ _ hcmd hcfg hop => step_sameAnswer hcmd hcfg hop

end Sys2Proof.Machine
end

section
/-! SUPPORT. The one step, the default tables and a host's script of requests (10_state.md R24 to R36). What a
step can do is said once; a request served is a step with an answer; a script is served one request at a time,
and since no request changes the configuration (R24, R35) each answer is the one its request gets alone. -/

namespace Sys2Proof.Machine

/-! ### The step -/

/-- Settles O5: `step` adds nothing to the operation its word decodes to. -/
theorem stepRunsTheDecodedOperation : Obligations.StepRunsTheDecodedOperation :=
  fun _ _ h => step_of_decode_ok h

/-- Everything a step can do: a legal response and nothing else, or an illegal one and nothing else
(60_exceptions.md R211, R212). -/
theorem step_cases (s : State) :
    (∃ v, step s = .next (legalNext s v)) ∨ ∃ c, step s = .next (s.raised c) := by
  cases hd : decode s.cmd with
  | error c => exact .inr ⟨c, step_of_decode_error hd⟩
  | ok i =>
    rw [step_of_decode_ok hd]
    rcases exec_cases i s with legal | range | operand
    · exact .inl legal
    · exact .inr ⟨_, range⟩
    · exact .inr ⟨_, operand⟩

/-- Settles O12: neither kind of response touches the ports or the configuration. -/
theorem noStepWritesATable : Obligations.NoStepWritesATable := by
  intro s
  rcases step_cases s with ⟨v, h⟩ | ⟨c, h⟩
  · exact ⟨_, _, h, legalNext_rsp s v, rfl, rfl, rfl⟩
  · exact ⟨_, _, h, State.raised_rsp s c, rfl, rfl, rfl⟩

/-- A step keeps the configuration, tables included (10_state.md R25, R35). -/
theorem step_cfg {s t : State} (h : step s = .next t) : t.cfg = s.cfg := by
  obtain ⟨t', _, h', _, _, _, hcfg⟩ := noStepWritesATable s
  cases h.symm.trans h'
  exact hcfg

/-! ### The default tables -/

theorem quadraticLut_getElem (c : Nat) {i : Nat} (hi : i < 256) :
    (Config.quadraticLut c)[i] = c * i * (256 - i) := by
  simp [Config.quadraticLut]

/-- The parabola i · (256 − i) has its top at 128. -/
theorem quadraticLut_getElem_le (c : Nat) {i : Nat} (hi : i < 256) :
    (Config.quadraticLut c)[i] ≤ c * 16384 := by
  have top : i * (256 - i) ≤ 16384 := by
    obtain ⟨j, hj⟩ := Nat.exists_eq_add_of_le hi.le
    rw [hj, Nat.add_sub_cancel_left]
    nlinarith only [sq_nonneg ((i : Int) - j), hj]
  rw [quadraticLut_getElem c hi, Nat.mul_assoc]
  exact Nat.mul_le_mul_left c top

/-- Entry i equals entry 256 − i (10_state.md R27). -/
theorem quadraticLut_symm (c : Nat) {i j : Nat} (hi : i < 256) (hj : j < 256) (h : i + j = 256) :
    (Config.quadraticLut c)[i] = (Config.quadraticLut c)[j] := by
  rw [quadraticLut_getElem c hi, quadraticLut_getElem c hj, ← h, Nat.add_sub_cancel_left,
    Nat.add_sub_cancel, Nat.mul_right_comm]

/-- Settles O11: the tables at reset are the parabolas with numerators 89 and 88. -/
theorem resetLeavesTheDefaultTablesAndNoResponse :
    Obligations.ResetLeavesTheDefaultTablesAndNoResponse := by
  have enc (i : Fin 256) : State.reset.cfg.encLut[i] ≤ 89 * 16384 := quadraticLut_getElem_le 89 i.isLt
  have dec (i : Fin 256) : State.reset.cfg.decLut[i] ≤ 88 * 16384 := quadraticLut_getElem_le 88 i.isLt
  refine ⟨rfl, rfl, rfl, fun w => ?fMax, fun i => quadraticLut_getElem 89 i.isLt,
    fun i => quadraticLut_getElem 88 i.isLt, fun i => ⟨?encBound, ?decBound⟩,
    quadraticLut_getElem 89 (by decide), quadraticLut_getElem 88 (by decide),
    fun i => ⟨enc i, dec i⟩, fun i j h =>
      ⟨quadraticLut_symm 89 i.isLt j.isLt h, quadraticLut_symm 88 i.isLt j.isLt h⟩⟩
  case fMax =>
    rw [fMax_default rfl]
    exact Nat.sub_add_cancel (bits_pos w)
  case encBound => exact (enc i).trans_lt (by decide)
  case decBound => exact (dec i).trans_lt (by decide)

/-! ### A script of requests -/

/-- A request served is one step from the state with the request on the ports, and its response. -/
theorem serveOne_eq_some_iff {q : Request} {s t : State} {y : Response} :
    serveOne q s = some (y, t) ↔ step (s.present q) = .next t ∧ t.rsp = some y := by
  obtain ⟨t', y', hstep, hrsp, _⟩ := noStepWritesATable (s.present q)
  simp only [serveOne, hstep, hrsp, Option.map_some, Option.some.injEq, Prod.mk.injEq,
    Host.Outcome.next.injEq]
  constructor
  · rintro ⟨rfl, rfl⟩
    exact ⟨rfl, hrsp⟩
  · rintro ⟨rfl, h⟩
    exact ⟨Option.some.inj (hrsp.symm.trans h), rfl⟩

/-- Serving a request keeps the configuration (10_state.md R24). -/
theorem serveOne_cfg {q : Request} {s t : State} {y : Response} (h : serveOne q s = some (y, t)) :
    t.cfg = s.cfg :=
  step_cfg (s := s.present q) (serveOne_eq_some_iff.mp h).1

/-- A request is answered from every state, and in all that is specified of the response only the
configuration counts (10_state.md R31). -/
theorem serveOne_sameResponse (q : Request) {s s' : State} (hcfg : s.cfg = s'.cfg) :
    ∃ y t y' t', serveOne q s = some (y, t) ∧ serveOne q s' = some (y', t') ∧ SameResponse y y' := by
  obtain ⟨t, t', y, y', hstep, hstep', hrsp, hrsp', same⟩ :=
    step_sameAnswer (s := s.present q) (s' := s'.present q) rfl hcfg fun _ _ => rfl
  exact ⟨y, t, y', t', serveOne_eq_some_iff.mpr ⟨hstep, hrsp⟩,
    serveOne_eq_some_iff.mpr ⟨hstep', hrsp'⟩, same⟩

@[simp] theorem serve_nil (s : State) : serve [] s = some ([], s) := rfl

/-- The first request is served, then the rest from the state it leaves. -/
theorem serve_cons {q : Request} {qs : List Request} {s t u : State} {y : Response}
    {ys : List Response} (hq : serveOne q s = some (y, t)) (hqs : serve qs t = some (ys, u)) :
    serve (q :: qs) s = some (y :: ys, u) := by
  simp [serve, hq, hqs]

/-- `y` is, in all that is specified, the response `q` gets alone right after a reset with the configuration
`c`. -/
def AnswersAlone (c : Config) (q : Request) (y : Response) : Prop :=
  ∃ y₀ t₀, serveOne q { State.reset with cfg := c } = some (y₀, t₀) ∧ SameResponse y y₀

/-- Settles O16, by induction on the script: the first request leaves the configuration, and with it all that
the responses to the rest depend on. -/
theorem scriptResponsesComeInOrderAndIndependently :
    Obligations.ScriptResponsesComeInOrderAndIndependently := by
  intro qs
  change ∀ s : State, ∃ ys t, serve qs s = some (ys, t) ∧ t.cfg = s.cfg ∧
    List.Forall₂ (AnswersAlone s.cfg) qs ys
  induction qs with
  | nil => exact fun s => ⟨[], s, rfl, rfl, .nil⟩
  | cons q qs ih =>
    intro s
    obtain ⟨y, t, y₀, t₀, hq, alone, same⟩ :=
      serveOne_sameResponse q (s := s) (s' := { State.reset with cfg := s.cfg }) rfl
    obtain ⟨ys, u, hqs, hcfg, rest⟩ := ih t
    rw [serveOne_cfg hq] at hcfg rest
    exact ⟨y :: ys, u, serve_cons hq hqs, hcfg, .cons ⟨y₀, t₀, alone, same⟩ rest⟩

end Sys2Proof.Machine
end

section
/-! SUPPORT. A legal request is idempotent (20_memory.md R43; log entry 10). A step with a legal response
changes the response port alone, so the next step meets the same request and configuration and gives the same
response: what it puts at the port already stands there. -/

namespace Sys2Proof.Machine

/-- A step that leaves a legal response has changed nothing but the response port, and takes no free draw
(60_exceptions.md R212). -/
theorem eq_setRsp_of_step_legal {s t : State} {y : Response} (hstep : step s = .next t)
    (hrsp : t.rsp = some y) (legal : y.ill = false) : t = { s with rsp := some y } := by
  rcases step_cases s with ⟨v, h⟩ | ⟨c, h⟩
  · cases hstep.symm.trans h
    rw [← hrsp]
    rfl
  · cases hstep.symm.trans h
    cases (State.raised_rsp s c).symm.trans hrsp
    cases legal

/-- Responses that agree in all that is specified are equal when the first is legal: `r` is left open only
when `ill` is set (60_exceptions.md R212). -/
theorem SameResponse.eq_of_legal {y z : Response} (same : SameResponse y z) (legal : y.ill = false) :
    z = y := by
  obtain ⟨hill, hcause, hr⟩ := same
  cases y
  cases z
  cases hill
  cases hcause
  cases hr legal
  rfl

/-- Settles O13: the repeated step gives the same response, and putting it at the port where it already
stands changes nothing. -/
theorem repeatingALegalRequestChangesNothing : Obligations.RepeatingALegalRequestChangesNothing := by
  intro s t y hstep hrsp legal
  have ht : t = { s with rsp := some y } := eq_setRsp_of_step_legal hstep hrsp legal
  obtain ⟨t₁, t', y₁, y', h₁, hstep', hrsp₁, hrsp', same⟩ :=
    step_sameAnswer (s := s) (s' := t) (by rw [ht]) (by rw [ht]) fun _ _ => by rw [ht]
  cases hstep.symm.trans h₁
  cases hrsp.symm.trans hrsp₁
  cases same.eq_of_legal legal
  have ht' : t' = { t with rsp := some y } := eq_setRsp_of_step_legal hstep' hrsp' legal
  rw [hstep', ht', ← hrsp]

end Sys2Proof.Machine
end

section
/-! SUPPORT. The decoder against the opcode table (30_encoding.md R70 to R73, R80, R81). Each operation's row is
related to its uses, its mask and its encoding once; from that follows everything the decoder can answer, by
`op` and by whether the word matches a row (`decode_cases`), and a word decodes to an instruction exactly when it
is that instruction's encoding (`decode_eq_ok_iff`). -/

namespace Sys2Proof

open Machine

/-! ### The fields of a word -/

theorem cmdField_op (c : CmdWord) : cmdField c 0 5 = (fieldOp c).toNat := (extract_toNat c 0 5).symm

theorem cmdField_rsv (c : CmdWord) : cmdField c 21 11 = (fieldRsv c).toNat := (extract_toNat c 21 11).symm

theorem unusedClear_iff {u : Uses} {c : CmdWord} :
    unusedClear u c = true ↔ fieldRsv c = 0 ∧ (u.wl = true ∨ fieldWl c = 0) ∧
      (u.p = true ∨ fieldP c = 0) ∧ (u.q = true ∨ fieldQ c = 0) := by
  simp only [unusedClear, Bool.and_eq_true, Bool.or_eq_true, decide_eq_true_eq, and_assoc]

theorem extract_or_eq_zero {c d : CmdWord} {lo n : Nat} (hc : c.extractLsb' lo n = 0)
    (hd : d.extractLsb' lo n = 0) : (c ||| d).extractLsb' lo n = 0 := by
  rw [BitVec.extractLsb'_or, hc, hd, BitVec.or_self]

theorem extract_and_eq_zero (c : CmdWord) {d : CmdWord} {lo n : Nat} (hd : d.extractLsb' lo n = 0) :
    (c &&& d).extractLsb' lo n = 0 := by
  rw [BitVec.extractLsb'_and, hd]
  exact BitVec.and_zero

theorem unusedClear_or {u : Uses} {c d : CmdWord} (hc : unusedClear u c = true)
    (hd : unusedClear u d = true) : unusedClear u (c ||| d) = true := by
  obtain ⟨rsv, wl, p, q⟩ := unusedClear_iff.1 hc
  obtain ⟨rsv', wl', p', q'⟩ := unusedClear_iff.1 hd
  exact unusedClear_iff.2 ⟨extract_or_eq_zero rsv rsv',
    wl.elim .inl fun h => wl'.imp_right (extract_or_eq_zero h),
    p.elim .inl fun h => p'.imp_right (extract_or_eq_zero h),
    q.elim .inl fun h => q'.imp_right (extract_or_eq_zero h)⟩

theorem unusedClear_and_right {u : Uses} (c : CmdWord) {d : CmdWord} (hd : unusedClear u d = true) :
    unusedClear u (c &&& d) = true := by
  obtain ⟨rsv, wl, p, q⟩ := unusedClear_iff.1 hd
  exact unusedClear_iff.2 ⟨extract_and_eq_zero c rsv, wl.imp_right (extract_and_eq_zero c),
    p.imp_right (extract_and_eq_zero c), q.imp_right (extract_and_eq_zero c)⟩

theorem unusedClear_pack {u : Uses} {op : BitVec 5} {wh wl : BitVec 2} {p q : Param} :
    unusedClear u (pack op wh wl p q) = true ↔
      (u.wl = true ∨ wl = 0) ∧ (u.p = true ∨ p = 0) ∧ (u.q = true ∨ q = 0) := by
  rw [unusedClear_iff, fieldRsv_pack, fieldWl_pack, fieldP_pack, fieldQ_pack]
  exact and_iff_right rfl

/-- The word with every field that `u` leaves unused put to zero. -/
def clearUnused (u : Uses) (c : CmdWord) : CmdWord :=
  pack (fieldOp c) (fieldWh c) (bif u.wl then fieldWl c else 0) (bif u.p then fieldP c else 0)
    (bif u.q then fieldQ c else 0)

theorem clearUnused_eq_self {u : Uses} {c : CmdWord} (h : unusedClear u c = true) :
    clearUnused u c = c := by
  obtain ⟨rsv, wl, p, q⟩ := unusedClear_iff.1 h
  have keep {n : Nat} {b : Bool} {x : BitVec n} (hx : b = true ∨ x = 0) : (bif b then x else 0) = x := by
    rcases hx with rfl | rfl <;> simp
  rw [clearUnused, keep wl, keep p, keep q, pack_fields rsv]

/-! ### The rows of the opcode table -/

/-- The mask of every row holds the whole of `op`, and its match the row's number. -/
theorem fieldOp_opcodeRows : ∀ y ∈ opcodeRows.zipIdx,
    fieldOp y.1.1 = BitVec.allOnes 5 ∧ (fieldOp y.1.2).toNat = y.2 := by decide

/-- A word can match the row of its own `op` only. -/
theorem matchesARow_iff {c : CmdWord} :
    MatchesARow c ↔ ∃ x, opcodeRows[(fieldOp c).toNat]? = some x ∧ c &&& x.1 = x.2 := by
  constructor
  · rintro ⟨x, hx, hc⟩
    obtain ⟨k, hrow⟩ := List.mem_iff_getElem?.1 hx
    obtain ⟨hmask, hmatch⟩ := fieldOp_opcodeRows (x, k) (List.mem_zipIdx_iff_getElem?.2 hrow)
    have hop : fieldOp x.2 = fieldOp c := by
      rw [← hc, fieldOp, BitVec.extractLsb'_and]
      exact (congrArg (fieldOp c &&& ·) hmask).trans BitVec.and_allOnes
    exact ⟨x, by rw [← hop, hmatch, hrow], hc⟩
  · rintro ⟨x, hrow, hc⟩
    exact ⟨x, List.mem_of_getElem? hrow, hc⟩

open Laws.RowMatch in
/-- Every operation's encoding meets the operation's own row. -/
theorem rowMatch (i : Instr) : Statement i := by
  cases i
  exacts [clz _, fls _, log2f _, bmask _ _, umin _, umax _, smin _, smax _, pulmaxm _ _, slogmaxm _ _,
    tofpu _ _ _, tofps _ _ _, fromfpu _ _ _, fromfps _ _ _, pulenc _ _ _, puldec _ _ _,
    slogenc _ _ _ _, slogdec _ _ _ _, slogencc _ _ _ _, slogdecc _ _ _ _, pul2pul _ _ _ _,
    slog2slog _ _ _ _, pul2slog _ _ _ _, slog2pul _ _ _ _]

theorem matchesARow_encode (i : Instr) : MatchesARow (encode i) := by
  obtain ⟨x, hrow, hc⟩ := rowMatch i
  exact ⟨x, List.mem_of_getElem? hrow, hc⟩

/-- No row has an `op` of 24 or more (30_encoding.md R81). -/
theorem fieldOp_lt_of_matchesARow {c : CmdWord} (h : MatchesARow c) : (fieldOp c).toNat < 24 := by
  obtain ⟨x, hrow, _⟩ := matchesARow_iff.1 h
  exact (List.getElem?_eq_some_iff.1 hrow).1

/-- How the decoder and the opcode table treat a word of a defined `op`: by the row `u`, `i` of the operation
map, which encodes back to the used fields, and by the row `x` of the table, whose mask covers every bit that `u`
leaves unused and whose match has them zero (30_encoding.md R80). -/
structure RowOf (c : CmdWord) (u : Uses) (i : Instr) (x : CmdWord × CmdWord) : Prop where
  decode_eq : decode c = row u c i
  encode_eq : encode i = clearUnused u c
  row_eq : opcodeRows[(fieldOp c).toNat]? = some x
  mask_clear : unusedClear u (~~~x.1) = true
  match_clear : unusedClear u x.2 = true

theorem RowOf.of_op {c : CmdWord} {u : Uses} {i : Instr} {x : CmdWord × CmdWord} {k : Nat}
    (hk : (fieldOp c).toNat = k) (hdecode : decode c = row u c i)
    (hencode : encode i = pack (BitVec.ofNat 5 k) (codeOfWidth (widthOfCode (fieldWh c)))
      (bif u.wl then codeOfWidth (widthOfCode (fieldWl c)) else 0) (bif u.p then fieldP c else 0)
      (bif u.q then fieldQ c else 0))
    (hrow : opcodeRows[k]? = some x) (hmask : unusedClear u (~~~x.1) = true)
    (hmatch : unusedClear u x.2 = true) : RowOf c u i x where
  decode_eq := hdecode
  encode_eq := by
    rw [hencode, clearUnused, ← hk, BitVec.ofNat_toNat, BitVec.setWidth_eq, codeOfWidth_widthOfCode,
      codeOfWidth_widthOfCode]
  row_eq := hk ▸ hrow
  mask_clear := hmask
  match_clear := hmatch

/-- Every defined `op` has its row, read off the definitions of `decode`, `encode` and the table. -/
theorem exists_rowOf {c : CmdWord} (h : (fieldOp c).toNat < 24) : ∃ u i x, RowOf c u i x := by
  match hk : (fieldOp c).toNat, h with
  | 0, _ | 1, _ | 2, _ | 3, _ | 4, _ | 5, _ | 6, _ | 7, _ | 8, _ | 9, _ | 10, _ | 11, _ | 12, _ | 13, _
  | 14, _ | 15, _ | 16, _ | 17, _ | 18, _ | 19, _ | 20, _ | 21, _ | 22, _ | 23, _ =>
    exact ⟨_, _, _, .of_op hk (by simp only [decode, hk]; rfl) (by rfl) (by rfl) (by decide) (by decide)⟩
  | n + 24, h => exact absurd h (by omega)

/-- `op` 24 to 31 are rejected with cause 1 (30_encoding.md R81). -/
theorem decode_of_reserved {c : CmdWord} (h : 24 ≤ (fieldOp c).toNat) :
    decode c = .error .reservedOperation := by
  obtain ⟨k, hk⟩ := Nat.exists_eq_add_of_le' h
  simp only [decode, hk]

section
variable {c : CmdWord} {u : Uses} {i : Instr} {x : CmdWord × CmdWord}

theorem RowOf.encode_of_clear (r : RowOf c u i x) (h : unusedClear u c = true) : encode i = c :=
  r.encode_eq.trans (clearUnused_eq_self h)

/-- The table's row accepts a word exactly when its unused bits are clear. -/
theorem RowOf.matchesARow_iff (r : RowOf c u i x) : MatchesARow c ↔ unusedClear u c = true := by
  constructor
  · intro h
    obtain ⟨x', hx', hc⟩ := Sys2Proof.matchesARow_iff.1 h
    cases r.row_eq.symm.trans hx'
    have parts : c = x.2 ||| (c &&& ~~~x.1) := by
      rw [← hc]
      ext k hk
      simp [← Bool.and_or_distrib_left]
    rw [parts]
    exact unusedClear_or r.match_clear (unusedClear_and_right c r.mask_clear)
  · intro h
    rw [← r.encode_of_clear h]
    exact matchesARow_encode i

end

/-- Only encodings match a row. -/
theorem exists_encode_of_matchesARow {c : CmdWord} (h : MatchesARow c) :
    ∃ i, decode c = .ok i ∧ encode i = c := by
  obtain ⟨u, i, x, r⟩ := exists_rowOf (fieldOp_lt_of_matchesARow h)
  have clear := r.matchesARow_iff.1 h
  exact ⟨i, r.decode_eq.trans (row_eq_ok.2 ⟨clear, rfl⟩), r.encode_of_clear clear⟩

/-- A defined `op` without a matching row is rejected with cause 2 (30_encoding.md R73). -/
theorem decode_of_not_matchesARow {c : CmdWord} (hop : (fieldOp c).toNat < 24) (h : ¬ MatchesARow c) :
    decode c = .error .reservedField := by
  obtain ⟨u, i, x, r⟩ := exists_rowOf hop
  rw [r.matchesARow_iff, Bool.not_eq_true] at h
  exact r.decode_eq.trans (row_eq_error.2 ⟨h, rfl⟩)

/-- Everything the decoder can do with a word: cause 1 for an undefined `op`; else the instruction the word
encodes, when it matches its row; else cause 2 (30_encoding.md R73, R80, R81). -/
theorem decode_cases (c : CmdWord) :
    (24 ≤ (fieldOp c).toNat ∧ ¬ MatchesARow c ∧ decode c = .error .reservedOperation) ∨
    ((fieldOp c).toNat < 24 ∧ MatchesARow c ∧ ∃ i, decode c = .ok i ∧ encode i = c) ∨
    ((fieldOp c).toNat < 24 ∧ ¬ MatchesARow c ∧ decode c = .error .reservedField) := by
  by_cases hrow : MatchesARow c
  · exact .inr (.inl ⟨fieldOp_lt_of_matchesARow hrow, hrow, exists_encode_of_matchesARow hrow⟩)
  · rcases Nat.lt_or_ge (fieldOp c).toNat 24 with defined | reserved
    · exact .inr (.inr ⟨defined, hrow, decode_of_not_matchesARow defined hrow⟩)
    · exact .inl ⟨reserved, hrow, decode_of_reserved reserved⟩

/-! ### Decoding and encoding -/

theorem encode_of_decode {c : CmdWord} {i : Instr} (h : decode c = .ok i) : encode i = c := by
  rcases decode_cases c with ⟨_, _, hd⟩ | ⟨_, _, j, hd, hj⟩ | ⟨_, _, hd⟩ <;> cases h.symm.trans hd
  exact hj

/-- Settles O1: the decoder reads back every field of the packed word and finds the unused ones zero. -/
theorem encodedInstructionDecodesToItself : Obligations.EncodedInstructionDecodesToItself := by
  intro i
  cases i <;>
    simp only [encode, decode, fieldOp_pack, fieldWh_pack, fieldWl_pack, fieldP_pack, fieldQ_pack,
      widthOfCode_codeOfWidth] <;>
    exact row_eq_ok.2 ⟨unusedClear_pack.2
      (by simp [usesW, usesWP, usesHL, usesHLQ, usesHLP, usesAll]), rfl⟩

/-- A word decodes to an instruction exactly when it is the instruction's encoding (30_encoding.md R73). -/
theorem decode_eq_ok_iff {c : CmdWord} {i : Instr} : decode c = .ok i ↔ encode i = c :=
  ⟨encode_of_decode, fun h => h ▸ encodedInstructionDecodesToItself i⟩

theorem fieldRsv_encode (i : Instr) : fieldRsv (encode i) = 0 := by
  cases i <;> exact fieldRsv_pack ..

/-- A word that matches a row has its reserved bits clear (30_encoding.md R72). -/
theorem fieldRsv_of_matchesARow {c : CmdWord} (h : MatchesARow c) : fieldRsv c = 0 := by
  obtain ⟨i, _, rfl⟩ := exists_encode_of_matchesARow h
  exact fieldRsv_encode i

/-! ### The step on a word the decoder rejects -/

/-- A defined operation with no matching row is answered with cause 2 (30_encoding.md R72, R73). -/
theorem step_of_not_matchesARow {s : State} (hop : (fieldOp s.cmd).toNat < 24)
    (hrow : ¬ MatchesARow s.cmd) : ∃ t, step s = .next t ∧ IllegalNext s t 2 :=
  step_of_decode_error (decode_of_not_matchesARow hop hrow) ▸ raise_illegal .reservedField s

/-- An undefined operation is answered with cause 1 (30_encoding.md R81). -/
theorem step_of_reserved {s : State} (hop : 24 ≤ (fieldOp s.cmd).toNat) :
    ∃ t, step s = .next t ∧ IllegalNext s t 1 :=
  step_of_decode_error (decode_of_reserved hop) ▸ raise_illegal .reservedOperation s

/-- Settles O2: a decodable word is the encoding of its instruction. -/
theorem decodingIsInjectiveAndUnusedFieldsAreCauseTwo :
    Obligations.DecodingIsInjectiveAndUnusedFieldsAreCauseTwo := by
  refine ⟨fun c i => encode_of_decode, fun c d i hc hd => ?_, fun s hop _ hrow => ?_⟩
  · exact (encode_of_decode hc).symm.trans (encode_of_decode hd)
  · exact step_of_not_matchesARow (cmdField_op s.cmd ▸ hop) hrow

/-- Settles O3, in each of the three cases of `decode_cases`. -/
theorem decoderAcceptsExactlyTheOpcodeTable : Obligations.DecoderAcceptsExactlyTheOpcodeTable := by
  intro c
  rw [cmdField_op]
  rcases decode_cases c with ⟨hop, hrow, hd⟩ | ⟨hop, hrow, i, hd, _⟩ | ⟨hop, hrow, hd⟩
  · simp [hd, hop, hrow]
  · simp [hd, hop, hrow]
  · simp [hd, hop, hrow]

/-- Settles O7: a word with a reserved bit set matches no row. -/
theorem reservedBitsAreCauseTwo : Obligations.ReservedBitsAreCauseTwo := by
  intro s hrsv
  rw [cmdField_rsv] at hrsv
  rw [cmdField_op]
  split
  · next undefined => exact step_of_reserved undefined
  · next defined =>
    refine step_of_not_matchesARow (Nat.lt_of_not_le defined) fun hrow => hrsv ?_
    rw [fieldRsv_of_matchesARow hrow]
    rfl

/-- Settles O6: the decoder looks at no other field. -/
theorem reservedOperationIsCauseOne : Obligations.ReservedOperationIsCauseOne :=
  fun s h => step_of_reserved (cmdField_op s.cmd ▸ h)

/-- Settles O4: each word is the encoding of its instruction. -/
theorem sampleWordsDecode : Obligations.SampleWordsDecode :=
  ⟨decode_eq_ok_iff.2 (by decide), decode_eq_ok_iff.2 (by decide), decode_eq_ok_iff.2 (by decide),
    decode_eq_ok_iff.2 (by decide), decode_eq_ok_iff.2 (by decide)⟩

end Sys2Proof
end

section
/-! SUPPORT. The width of results (30_encoding.md R75; R80, column 'result'). A bound on the values an operation
can answer is a bound on `r`; the values are bounded one by one, and each operation answers one of them. -/

namespace Sys2Proof.Machine

/-! ### Bounds on the values -/

theorem bits_lt_two_pow_seven (w : Width) : w.bits < 2 ^ 7 := (bits_le w).trans_lt (by decide)

theorem nlz_lt {w : Width} (v : Nat) : nlz w.bits v < w.bits := by
  have := bits_pos w
  unfold nlz
  omega

/-- PULDEC's value fits the integer side (43_pul_codec.md R143). -/
theorem pulDecode_lt {H M : Nat} (hH : 0 < H) (hM : M ≤ H - 1) (cw : Nat) :
    pulDecode H M cw < 2 ^ H := by
  by_cases h1 : cw = 1
  · simp [pulDecode, h1]
  · have hf : cw % 2 ^ M < 2 ^ M := Nat.mod_lt _ (two_pow_pos M)
    have parts : cw / 2 ^ M * 2 ^ M + cw % 2 ^ M = cw := Nat.div_add_mod' ..
    have value := pulDecode_eq hH hM hf (parts.symm ▸ h1)
    rw [parts] at value
    exact value ▸ decodedValue_lt hH hf _

/-- SLOGENC's word fits its width (44_slog_codec.md R161). -/
theorem slogEncode_lt {L : Nat} (hL : 0 < L) (H M F v : Nat) : slogEncode H L M F v < 2 ^ L := by
  unfold slogEncode
  split
  · exact Nat.two_pow_pred_lt_two_pow hL
  · exact trunc_lt L _

/-- SLOGENCC's word fits its width (44_slog_codec.md R166). -/
theorem slogEncodeCorrected_lt {L : Nat} (hL : 0 < L) (c : Config) (H M F v : Nat) :
    slogEncodeCorrected c H L M F v < 2 ^ L := by
  unfold slogEncodeCorrected
  split
  · exact Nat.two_pow_pred_lt_two_pow hL
  · exact trunc_lt L _

/-- A decoded SLOG word fits the integer side when the correction keeps the fraction within its M bits
(44_slog_codec.md R163, R167). -/
theorem slogDecodeWith_lt {fix : Nat → Nat} {H L M cw : Nat} (hfix : ∀ f < 2 ^ M, fix f < 2 ^ M)
    (hH : 0 < H) (hL : 0 < L) (hM : M ≤ H - 1) (hcw : cw < 2 ^ L) (neg : SlogdecNeg) (F : Nat) :
    slogDecodeWith fix neg H L M F cw < 2 ^ H := by
  by_cases sentinel : cw = 2 ^ (L - 1)
  · rw [sentinel, slogDecodeWith_sentinel]
    exact two_pow_pos H
  · have parts : PartsOf neg M (signedAt L cw) _ _ := partsOf_iff.2 rfl
    have hf := hfix _ parts.1
    rw [slogDecodeWith_eq hL hcw hM sentinel parts hf]
    exact decodedValue_lt hH hf _

theorem transcode_lt (lo : Width) (mi mo : Param) (x : Int) : transcode lo mi mo x < 2 ^ lo.bits :=
  trunc_lt lo.bits _

/-! ### Bounds on the answers -/

/-- Whenever `x` is a legal response, its result lies in the low `n` bits. -/
def AnswersWithin (n : Nat) (x : Result) : Prop :=
  ∀ t y, x = .next t → t.rsp = some y → y.ill = false → y.r.toNat < 2 ^ n

section
variable {n v : Nat} {s : State}

theorem AnswersWithin.answer (hv : v < 2 ^ n) : AnswersWithin n (Machine.answer v s) := by
  rintro _ _ ⟨⟩ ⟨⟩ _
  exact (Nat.mod_le v _).trans_lt hv

theorem AnswersWithin.raise (c : Cause) : AnswersWithin n (Machine.raise c s) := by
  rintro _ _ ⟨⟩ ⟨⟩ ⟨⟩

theorem AnswersWithin.answerWhen {b : Bool} (hv : b = true → v < 2 ^ n) :
    AnswersWithin n (Machine.answerWhen b v s) := by
  cases b with
  | true => exact .answer (hv rfl)
  | false => exact .raise .parameterRange

theorem AnswersWithin.answerNonzero {x : Nat} (hv : v < 2 ^ n) :
    AnswersWithin n (Machine.answerNonzero x v s) := by
  cases x with
  | zero => exact .raise .operandRange
  | succ k => exact .answer hv

end

/-- Every operation answers within its result bits (30_encoding.md R80). -/
theorem exec_answersWithin (i : Instr) (s : State) : AnswersWithin (resultBits i) (exec i s) := by
  cases i with
  | clz w => exact .answerNonzero ((nlz_lt _).trans (bits_lt_two_pow_seven w))
  | fls w =>
    refine .answer (lt_of_le_of_lt ?_ (bits_lt_two_pow_seven w))
    split
    · exact Nat.zero_le _
    · exact Nat.sub_le ..
  | log2f w => exact .answerNonzero (lt_of_le_of_lt (by omega) (bits_lt_two_pow_seven w))
  | pulmaxm h l | slogmaxm h l => exact .answer (lt_of_le_of_lt (by omega) (bits_lt_two_pow_seven l))
  | bmask w hi =>
    refine .answerWhen fun legal => ?_
    have top : hi.toNat + 1 ≤ w.bits := by
      have := (bmaskLegal_iff _ _).1 legal
      have := bits_pos w
      omega
    exact (Nat.sub_lt (two_pow_pos _) one_pos).trans_le (Nat.pow_le_pow_right two_pos top)
  | umin w => exact .answer (Nat.one_lt_two_pow (bits_pos w).ne')
  | umax w => exact .answer (Nat.sub_lt (two_pow_pos _) one_pos)
  | smin w => exact .answer (trunc_lt _ _)
  | smax w => exact .answer ((Nat.sub_le ..).trans_lt (Nat.two_pow_pred_lt_two_pow (bits_pos w)))
  | tofpu h l f | tofps h l f | fromfpu h l f | fromfps h l f => exact .answerWhen fun _ => trunc_lt _ _
  | pulenc h l m => exact .answerWhen fun _ => pulEncode_lt (bits_pos l) ..
  | puldec h l m =>
    exact .answerWhen fun legal => pulDecode_lt (bits_pos h) ((pulLegal_iff _ _ _).1 legal).2.2 _
  | slogenc h l m f => exact .answerWhen fun _ => slogEncode_lt (bits_pos l) ..
  | slogencc h l m f => exact .answerWhen fun _ => slogEncodeCorrected_lt (bits_pos l) ..
  | slogdec h l m f =>
    refine .answerWhen fun legal => ?_
    obtain ⟨_, _, hM, _⟩ := (slogLegal_iff ..).1 legal
    exact slogDecodeWith_lt (fun _ hf => hf) (bits_pos h) (bits_pos l) hM (operand_lt s l) _ _
  | slogdecc h l m f =>
    refine .answerWhen fun legal => ?_
    obtain ⟨_, _, hM, _⟩ := (slogLegal_iff ..).1 legal
    exact slogDecodeWith_lt (fun _ hf => (Nat.sub_le ..).trans_lt hf) (bits_pos h) (bits_pos l) hM
      (operand_lt s l) _ _
  | pul2pul li lo mi mo | slog2pul li lo mi mo =>
    refine .answerWhen fun _ => ?_
    split
    · exact Nat.one_lt_two_pow (bits_pos lo).ne'
    · exact transcode_lt ..
  | slog2slog li lo mi mo | pul2slog li lo mi mo =>
    refine .answerWhen fun _ => ?_
    split
    · exact Nat.two_pow_pred_lt_two_pow (bits_pos lo)
    · exact transcode_lt ..

/-- Settles O15: the bound of each operation, read at the response port. -/
theorem resultBitsAboveTheWidthAreZero : Obligations.ResultBitsAboveTheWidthAreZero :=
  fun i s => exec_answersWithin i s

end Sys2Proof.Machine
end

section
/-! SUPPORT. The bit primitives (41_bit_primitives.md). `Nat.size v`, the number of bits of v, is the one notion
behind the three counts: FLS answers it, LOG2F answers one less, CLZ what it leaves of the width. What each
operation answers is said once, and the statements are facts about `Nat.size`. -/

namespace Sys2Proof.Machine

/-! ### Request words -/

theorem widthCode_lt (w : Width) : widthCode w < 4 := by cases w <;> decide

theorem ofNat_widthCode (w : Width) : BitVec.ofNat 2 (widthCode w) = codeOfWidth w := by cases w <;> rfl

/-- An instruction is decoded from the word of its fields (30_encoding.md R70, R80). -/
theorem decode_requestWord {i : Instr} {op : Nat} {h l : Width} {p q : Param} (hop : op < 32)
    (fields : encode i = pack (BitVec.ofNat 5 op) (codeOfWidth h) (codeOfWidth l) p q) :
    decode (requestWord op (widthCode h) (widthCode l) p.toNat q.toNat) = .ok i := by
  rw [decode_eq_ok_iff, fields,
    requestWord_eq_pack hop (widthCode_lt h) (widthCode_lt l) p.isLt q.isLt, ofNat_widthCode,
    ofNat_widthCode, BitVec.ofNat_toNat, BitVec.ofNat_toNat, BitVec.setWidth_eq, BitVec.setWidth_eq]

/-- The word of an operation that uses `wh` alone: the width code 0 of the unused `wl` is that of 8 bits. -/
theorem decode_requestWord_w {i : Instr} {op : Nat} {w : Width} (hop : op < 32)
    (fields : encode i = pack (BitVec.ofNat 5 op) (codeOfWidth w) 0 0 0) :
    decode (requestWord op (widthCode w) 0 0 0) = .ok i :=
  decode_requestWord (l := .w8) (p := 0) (q := 0) hop fields

/-! ### The number of bits of the operand -/

theorem size_eq_log2_succ {v : Nat} (h0 : v ≠ 0) : v.size = v.log2 + 1 :=
  le_antisymm (Nat.size_le.2 Nat.lt_log2_self) (Nat.lt_size.2 (two_pow_log2_le h0))

theorem nlz_eq_sub_size (W : Nat) {v : Nat} (h0 : v ≠ 0) : nlz W v = W - v.size := by
  rw [nlz, size_eq_log2_succ h0]
  omega

theorem size_pos_of_ne {v : Nat} (h0 : v ≠ 0) : 0 < v.size := Nat.size_pos.2 (Nat.pos_of_ne_zero h0)

/-- The leading one is the topmost bit counted. -/
theorem two_pow_size_pred_le {v : Nat} (h0 : v ≠ 0) : 2 ^ (v.size - 1) ≤ v :=
  Nat.lt_size.1 (Nat.sub_lt (size_pos_of_ne h0) one_pos)

theorem size_operand_le (s : State) (w : Width) : (s.operand w).size ≤ w.bits :=
  Nat.size_le.2 (operand_lt s w)

/-! ### What each operation answers -/

theorem answerNonzero_of_eq_zero {x : Nat} (h0 : x = 0) (v : Nat) (s : State) :
    ∃ t, answerNonzero x v s = .next t ∧ IllegalNext s t 4 :=
  h0 ▸ answerNonzero_zero v s

section
variable {w : Width} {s : State}

theorem exec_clz_of_ne (h0 : s.operand w ≠ 0) :
    exec (.clz w) s = .next (legalNext s (w.bits - (s.operand w).size)) := by
  rw [← nlz_eq_sub_size _ h0]
  exact answerNonzero_ne h0 _ s

theorem exec_clz_of_zero (h0 : s.operand w = 0) : ∃ t, exec (.clz w) s = .next t ∧ IllegalNext s t 4 :=
  answerNonzero_of_eq_zero h0 _ s

/-- FLS at 0 needs no case of its own: 0 has no bits. -/
theorem exec_fls (w : Width) (s : State) :
    exec (.fls w) s = .next (legalNext s (s.operand w).size) := by
  change answer _ s = _
  rw [answer_eq]
  split
  · next h0 => rw [h0, Nat.size_zero]
  · next h0 => rw [nlz_eq_sub_size _ h0, Nat.sub_sub_self (size_operand_le s w)]

theorem exec_log2f_of_ne (h0 : s.operand w ≠ 0) :
    exec (.log2f w) s = .next (legalNext s ((s.operand w).size - 1)) := by
  have value : w.bits - 1 - nlz w.bits (s.operand w) = (s.operand w).size - 1 := by
    rw [nlz_eq_sub_size _ h0, Nat.sub_right_comm, Nat.sub_sub_self (size_operand_le s w)]
  rw [← value]
  exact answerNonzero_ne h0 _ s

theorem exec_log2f_of_zero (h0 : s.operand w = 0) :
    ∃ t, exec (.log2f w) s = .next t ∧ IllegalNext s t 4 :=
  answerNonzero_of_eq_zero h0 _ s

theorem exec_bmask_of_le {hi : Param} (h : hi.toNat ≤ w.bits - 1) :
    exec (.bmask w hi) s = .next (legalNext s (2 ^ (hi.toNat + 1) - 1)) :=
  answerWhen_legal ((bmaskLegal_iff _ _).2 h) _ s

theorem exec_bmask_of_ge {hi : Param} (h : w.bits ≤ hi.toNat) :
    ∃ t, exec (.bmask w hi) s = .next t ∧ IllegalNext s t 3 := by
  have illegal : ¬ bmaskLegal w hi.toNat = true := by
    have := bits_pos w
    rw [bmaskLegal_iff]
    omega
  exact answerWhen_illegal (Bool.eq_false_iff.2 illegal) _ s

end

/-! ### The counts -/

/-- Settles O17: CLZ is what the operand's bits leave of the width. -/
theorem clzCountsLeadingZeros : Obligations.ClzCountsLeadingZeros := by
  intro w s
  refine ⟨decode_requestWord_w (by decide) rfl, fun (h0 : s.operand w ≠ 0) => ?_, exec_clz_of_zero⟩
  have hpos := size_pos_of_ne h0
  have hle := size_operand_le s w
  refine ⟨_, exec_clz_of_ne h0, by omega, ?_, ?_⟩
  · rw [Nat.sub_right_comm, Nat.sub_sub_self hle]
    exact two_pow_size_pred_le h0
  · rw [Nat.sub_sub_self hle]
    exact Nat.lt_size_self _

/-- Settles O18: FLS is the number of the operand's bits. -/
theorem flsFindsTheLastSetBit : Obligations.FlsFindsTheLastSetBit := by
  intro w s
  refine ⟨decode_requestWord_w (by decide) rfl, fun (h0 : s.operand w = 0) => ?_,
    fun (h0 : s.operand w ≠ 0) => ?_⟩
  · rw [exec_fls, h0, Nat.size_zero]
  · exact ⟨_, exec_fls w s, size_pos_of_ne h0, size_operand_le s w,
      two_pow_size_pred_le h0, Nat.lt_size_self _⟩

/-- Settles O19: LOG2F is the position of the topmost bit counted. -/
theorem log2fIsTheFloorOfTheLogarithm : Obligations.Log2fIsTheFloorOfTheLogarithm := by
  intro w s
  refine ⟨decode_requestWord_w (by decide) rfl, fun (h0 : s.operand w ≠ 0) => ?_, exec_log2f_of_zero⟩
  have hpos := size_pos_of_ne h0
  have hle := size_operand_le s w
  refine ⟨_, exec_log2f_of_ne h0, by omega, two_pow_size_pred_le h0, ?_⟩
  rw [Nat.sub_add_cancel hpos]
  exact Nat.lt_size_self _

/-- Settles O23: the three counts are W − n, n and n − 1 for the operand's number of bits n, which grows with
the operand. -/
theorem bitPrimitiveLaws : Obligations.BitPrimitiveLaws := by
  constructor
  · intro w s (h0 : s.operand w ≠ 0)
    have hpos := size_pos_of_ne h0
    have hle := size_operand_le s w
    have hbits := bits_lt_two_pow_seven w
    exact ⟨_, _, _, exec_clz_of_ne h0, exec_fls w s, exec_log2f_of_ne h0, Nat.sub_add_cancel hle,
      Nat.sub_add_cancel hpos, (Nat.sub_le ..).trans_lt hbits, hle.trans_lt hbits,
      two_pow_size_pred_le h0, Nat.lt_size_self _⟩
  · intro w s s' h
    exact ⟨_, _, exec_fls w s, exec_fls w s', size_operand_le s w, size_operand_le s' w,
      Nat.size_le_size h⟩

/-! ### The mask, the constants and the budgets -/

/-- Settles O20: the bits of 2^(h+1) − 1 are those below h + 1. -/
theorem bmaskSetsTheLowBits : Obligations.BmaskSetsTheLowBits := by
  intro w hi s
  refine ⟨decode_requestWord (l := .w8) (q := 0) (by decide) rfl, fun h => ?_, exec_bmask_of_ge⟩
  refine ⟨_, exec_bmask_of_le h, fun k => ?_⟩
  rw [Nat.testBit_two_pow_sub_one]
  exact decide_eq_decide.2 Nat.lt_succ_iff

/-- The n-bit pattern of the least signed number is its leading one alone (41_bit_primitives.md R106). -/
theorem trunc_neg_two_pow_pred {n : Nat} (hn : 0 < n) : trunc n (-(2 ^ (n - 1))) = 2 ^ (n - 1) := by
  have double : (2 : Int) ^ n = 2 ^ (n - 1) + 2 ^ (n - 1) := by
    rw [← two_mul, ← pow_succ', Nat.sub_add_cancel hn]
  have wraps : trunc n (-(2 ^ (n - 1))) = trunc n (2 ^ (n - 1) : Nat) := by
    have shifted : -(2 ^ (n - 1) : Int) = (2 ^ (n - 1) : Nat) - 2 ^ n := by
      push_cast
      omega
    rw [trunc, trunc, shifted, Int.sub_emod_right]
  rw [wraps, trunc_natCast, Nat.mod_eq_of_lt (Nat.two_pow_pred_lt_two_pow hn)]

/-- Settles O21: the meanings are the constants, SMIN's after the wrap into W bits. -/
theorem minAndMaxConstants : Obligations.MinAndMaxConstants := by
  intro w s
  have smin : exec (.smin w) s = .next (legalNext s (2 ^ (w.bits - 1))) := by
    rw [← trunc_neg_two_pow_pred (bits_pos w)]
    exact answer_eq _ s
  exact ⟨decode_requestWord_w (by decide) rfl, decode_requestWord_w (by decide) rfl,
    decode_requestWord_w (by decide) rfl, decode_requestWord_w (by decide) rfl,
    answer_eq _ s, answer_eq _ s, smin, answer_eq _ s⟩

/-- Every word has room for the exponent of every integer side: log₂ H is at most 6, L at least 8. -/
theorem log2Bits_lt_bits (h l : Width) : h.log2Bits < l.bits :=
  calc h.log2Bits ≤ 6 := by cases h <;> decide
    _ < 8 := by decide
    _ ≤ l.bits := by cases l <;> decide

/-- Settles O22: `log2Bits` is the k with 2^k = H, and no budget is cut off at 0. -/
theorem mantissaBudgets : Obligations.MantissaBudgets := by
  intro h l s
  have room := log2Bits_lt_bits h l
  exact ⟨decode_requestWord (p := 0) (q := 0) (by decide) rfl,
    decode_requestWord (p := 0) (q := 0) (by decide) rfl,
    h.log2Bits, l.bits - h.log2Bits, l.bits - 1 - h.log2Bits, two_pow_log2Bits h, by omega, by omega,
    answer_eq _ s, answer_eq _ s⟩

end Sys2Proof.Machine
end

section
/-! SUPPORT. The linear fixed-point shifters (42_fixed_point.md). Each answers a truncated shift of its operand
exactly under R120; the shift and the truncation are the bit-vector datapath of the width, and where the shift
to the left loses no bit the shift to the right undoes it. -/

namespace Sys2Proof.Machine

/-! ### The operand as a bit vector -/

theorem operand_eq_toNat (s : State) (w : Width) : s.operand w = (s.a.setWidth w.bits).toNat :=
  (BitVec.toNat_setWidth ..).symm

theorem operandS_eq_toInt (s : State) (w : Width) : s.operandS w = (s.a.setWidth w.bits).toInt := by
  rw [operandS_eq, signedAt, BitVec.ofNat_toNat]

theorem trunc_operand (s : State) (w : Width) : trunc w.bits (s.operand w) = s.operand w := by
  rw [trunc_natCast, Nat.mod_eq_of_lt (operand_lt s w)]

/-- The pattern of the signed reading is the pattern read. -/
theorem trunc_operandS (s : State) (w : Width) : trunc w.bits (s.operandS w) = s.operand w := by
  rw [trunc_eq_toNat, operandS_eq_toInt, BitVec.ofInt_toInt, operand_eq_toNat]

/-- A presented operand that fits the width is read back. -/
theorem operand_withOperand {w : Width} {x : Nat} (hx : x < 2 ^ w.bits) (s : State) :
    (s.withOperand x).operand w = x := by
  have hbus : x < 2 ^ 64 := hx.trans_le (Nat.pow_le_pow_right two_pos (bits_le w))
  rw [State.operand, State.withOperand_a, BitVec.toNat_ofNat, Nat.mod_eq_of_lt hbus, Nat.mod_eq_of_lt hx]

theorem operandS_withOperand {w : Width} {x : Nat} (hx : x < 2 ^ w.bits) (s : State) :
    (s.withOperand x).operandS w = signedAt w.bits x := by
  rw [State.operandS, operand_withOperand hx, sint_eq_toInt (bits_pos w) hx, signedAt]

/-! ### Shift and truncation -/

theorem shl_zero (v : Int) : shl v 0 = v := by rw [shl, pow_zero, mul_one]

theorem shr_zero (v : Int) : shr v 0 = v := by rw [shr, pow_zero, Int.ediv_one]

theorem shr_shl (v : Int) (k : Nat) : shr (shl v k) k = v := Int.mul_ediv_cancel v (by positivity)

theorem shl_natCast (v k : Nat) : shl (v : Int) k = (v * 2 ^ k : Nat) := by
  rw [shl]
  push_cast
  rfl

theorem shr_natCast (v k : Nat) : shr (v : Int) k = (v / 2 ^ k : Nat) := by
  rw [shr]
  push_cast
  rfl

/-- A truncated left shift drops the same bits before the shift as after it. -/
theorem trunc_shl (n : Nat) (v : Int) (k : Nat) :
    trunc n (shl v k) = (BitVec.ofInt n v <<< k).toNat := by
  rw [trunc_eq_toNat, BitVec.shiftLeft_eq_mul_twoPow, shl, BitVec.ofInt_mul]
  congr 2
  apply BitVec.eq_of_toNat_eq
  rw [← trunc_eq_toNat, BitVec.toNat_twoPow, ← trunc_natCast]
  push_cast
  rfl

/-- The unsigned left shift is exact when the top k bits are clear (42_fixed_point.md R121). -/
theorem trunc_shl_eq_iff {n k : Nat} (hk : k ≤ n) (v : Nat) :
    trunc n (shl v k) = v * 2 ^ k ↔ v < 2 ^ (n - k) := by
  rw [shl_natCast, trunc_natCast, Nat.mod_eq_iff_lt (two_pow_pos n).ne', ← pow_sub_mul_pow 2 hk]
  exact Nat.mul_lt_mul_right (two_pow_pos k)

/-- The signed left shift is exact when the product is an n-bit signed number (42_fixed_point.md R122). -/
theorem signedAt_trunc_shl_iff {n k : Nat} (hn : 0 < n) (hk : k ≤ n - 1) (v : Int) :
    signedAt n (trunc n (shl v k)) = shl v k ↔ -(2 ^ (n - 1 - k)) ≤ v ∧ v < 2 ^ (n - 1 - k) := by
  have hp : (0 : Int) < 2 ^ k := by positivity
  have bounds : -(2 ^ (n - 1 - k)) ≤ v ∧ v < 2 ^ (n - 1 - k) ↔
      -(2 ^ (n - 1)) ≤ shl v k ∧ shl v k < 2 ^ (n - 1) := by
    rw [shl, ← pow_sub_mul_pow (2 : Int) hk, ← neg_mul, mul_le_mul_iff_left₀ hp, mul_lt_mul_iff_left₀ hp]
  rw [bounds]
  constructor
  · intro readBack
    rw [← readBack]
    exact ⟨BitVec.le_toInt _, BitVec.toInt_lt⟩
  · rintro ⟨low, high⟩
    exact signedAt_trunc hn low high

/-! ### What each shifter answers -/

/-- A guarded answer whose guard is the check of a condition. -/
theorem answerWhen_of_iff {b : Bool} {P : Prop} (hb : b = true ↔ P) (v : Nat) (s : State) :
    (P → answerWhen b v s = .next (legalNext s v)) ∧
      (¬ P → ∃ t, answerWhen b v s = .next t ∧ IllegalNext s t 3) :=
  ⟨fun legal => answerWhen_legal (hb.2 legal) v s,
    fun illegal => answerWhen_illegal (Bool.eq_false_iff.2 (illegal ∘ hb.1)) v s⟩

section
variable {h l : Width} {f : Param} {s : State}

theorem exec_tofpu (legal : FixedParams s.cfg h l f.toNat) :
    exec (.tofpu h l f) s = .next (legalNext s (trunc h.bits (shl (s.operand l) f.toNat))) :=
  answerWhen_legal ((fixedLegal_iff ..).2 legal) _ s

theorem exec_tofps (legal : FixedParams s.cfg h l f.toNat) :
    exec (.tofps h l f) s = .next (legalNext s (trunc h.bits (shl (s.operandS l) f.toNat))) :=
  answerWhen_legal ((fixedLegal_iff ..).2 legal) _ s

theorem exec_fromfpu (legal : FixedParams s.cfg h l f.toNat) :
    exec (.fromfpu h l f) s = .next (legalNext s (trunc l.bits (shr (s.operand h) f.toNat))) :=
  answerWhen_legal ((fixedLegal_iff ..).2 legal) _ s

theorem exec_fromfps (legal : FixedParams s.cfg h l f.toNat) :
    exec (.fromfps h l f) s = .next (legalNext s (trunc l.bits (shr (s.operandS h) f.toNat))) :=
  answerWhen_legal ((fixedLegal_iff ..).2 legal) _ s

/-- The four shifters have one guard (42_fixed_point.md R120). -/
theorem exec_fixed_eq_answerWhen {i : Instr}
    (hi : i ∈ [Instr.tofpu h l f, .tofps h l f, .fromfpu h l f, .fromfps h l f]) :
    ∃ v, exec i s = answerWhen (fixedLegal s.cfg h l f.toNat) v s := by
  simp only [List.mem_cons, List.not_mem_nil, or_false] at hi
  rcases hi with rfl | rfl | rfl | rfl <;> exact ⟨_, rfl⟩

/-- The four SLOG codec operations have one guard (44_slog_codec.md R160). -/
theorem exec_slog_eq_answerWhen {m : Param} {i : Instr}
    (hi : i ∈ [Instr.slogenc h l m f, .slogdec h l m f, .slogencc h l m f, .slogdecc h l m f]) :
    ∃ v, exec i s = answerWhen (slogLegal s.cfg h l m.toNat f.toNat) v s := by
  simp only [List.mem_cons, List.not_mem_nil, or_false] at hi
  rcases hi with rfl | rfl | rfl | rfl <;> exact ⟨_, rfl⟩

end

theorem answerWhen_not_fixedParams {h l : Width} {f v : Nat} {s : State}
    (illegal : ¬ FixedParams s.cfg h l f) :
    ∃ t, answerWhen (fixedLegal s.cfg h l f) v s = .next t ∧ IllegalNext s t 3 :=
  (answerWhen_of_iff (fixedLegal_iff ..) v s).2 illegal

/-! ### The shifters as bit-vector datapaths -/

/-- Settles O24: the integer product cut to H bits is the shift in H bits. -/
theorem tofpuIsTheShiftInHBits : Obligations.TofpuIsTheShiftInHBits := by
  intro h l f s
  refine ⟨decode_requestWord (p := 0) (by decide) rfl, fun legal => ?_, answerWhen_not_fixedParams⟩
  rw [exec_tofpu legal, trunc_shl, operand_eq_toNat, BitVec.ofInt_natCast, BitVec.ofNat_toNat]

/-- Settles O25: as TOFPU, and the H-bit pattern of the signed reading is the sign extension. -/
theorem tofpsIsTheSignedShiftInHBits : Obligations.TofpsIsTheSignedShiftInHBits := by
  intro h l f s
  refine ⟨decode_requestWord (p := 0) (by decide) rfl, fun legal => ?_, answerWhen_not_fixedParams⟩
  rw [exec_tofps legal, trunc_shl, operandS_eq_toInt, BitVec.signExtend]

/-- Settles O26: the quotient is the logical shift, cut to L bits. -/
theorem fromfpuIsTheLogicalShift : Obligations.FromfpuIsTheLogicalShift := by
  intro h l f s
  refine ⟨decode_requestWord (p := 0) (by decide) rfl, fun legal => ?_, answerWhen_not_fixedParams⟩
  rw [exec_fromfpu legal, shr_natCast, trunc_natCast, BitVec.toNat_setWidth, BitVec.toNat_ushiftRight,
    Nat.shiftRight_eq_div_pow, operand_eq_toNat]

/-- Settles O27: the floor quotient is the arithmetic shift, and since L ≤ H its L-bit pattern is its low bits. -/
theorem fromfpsIsTheArithmeticShift : Obligations.FromfpsIsTheArithmeticShift := by
  intro h l f s
  refine ⟨decode_requestWord (p := 0) (by decide) rfl, fun legal => ?_, answerWhen_not_fixedParams⟩
  have quotient : shr (s.operandS h) f.toNat = ((s.a.setWidth h.bits).sshiftRight f.toNat).toInt := by
    rw [BitVec.toInt_sshiftRight, Int.shiftRight_eq_div_pow, operandS_eq_toInt, shr]
    norm_cast
  rw [exec_fromfps legal, quotient, trunc_eq_toNat, ← BitVec.signExtend,
    BitVec.signExtend_eq_setWidth_of_le _ legal.1]

/-! ### The round trip, the identity and the default bound -/

/-- Settles O28: the left shift is exact on the domain, and the right shift of the exact product is the
operand's value, whose L-bit pattern is the operand. -/
theorem fixedPointRoundTripWhereExact : Obligations.FixedPointRoundTripWhereExact := by
  intro h l f s legal hf
  have hx := trunc_lt h.bits (shl (s.operand l) f.toNat)
  have hy := trunc_lt h.bits (shl (s.operandS l) f.toNat)
  have unsignedExact := trunc_shl_eq_iff (hf.trans (Nat.sub_le ..)) (s.operand l)
  have signedExact := signedAt_trunc_shl_iff (bits_pos h) hf (s.operandS l)
  refine ⟨_, _, exec_tofpu legal, hx, unsignedExact, fun small => ?_, exec_tofps legal, hy, ?_, ?_⟩
  · rw [exec_fromfpu (s := s.withOperand _) legal, operand_withOperand hx, unsignedExact.2 small,
      ← shl_natCast, shr_shl, trunc_operand, State.operand]
  · rw [← operandS_eq]
    exact signedExact
  · rw [← operandS_eq]
    intro inRange
    rw [exec_fromfps (s := s.withOperand _) legal, operandS_withOperand hy, signedExact.2 inRange, shr_shl,
      trunc_operandS, State.operand]

/-- Settles O29: a shift by 0 leaves the value, whose pattern is the operand. -/
theorem fixedPointIdentityAtZeroFraction : Obligations.FixedPointIdentityAtZeroFraction := by
  intro h s
  have legal : FixedParams s.cfg h h (0 : Param).toNat := ⟨le_rfl, Nat.zero_le _⟩
  have zero : (0 : Param).toNat = 0 := rfl
  rw [exec_tofpu legal, exec_tofps legal, exec_fromfpu legal, exec_fromfps legal, zero, shl_zero, shl_zero,
    shr_zero, shr_zero, trunc_operand, trunc_operandS]
  exact ⟨rfl, rfl, rfl, rfl⟩

/-- Settles O57: at the default `F_MAX` the two guards are the printed conditions, the exponent width being the
k with 2^k = H. -/
theorem legalParametersAtTheDefaultFMax : Obligations.LegalParametersAtTheDefaultFMax := by
  intro h l m f s k hdefault hk
  have hlog : k = h.log2Bits := Nat.pow_right_injective le_rfl (hk.trans (two_pow_log2Bits h).symm)
  subst hlog
  have fixedGuard : fixedLegal s.cfg h l f.toNat = true ↔ l.bits ≤ h.bits ∧ f.toNat ≤ h.bits - 1 := by
    rw [fixedLegal_iff, FixedParams, fMax_default hdefault]
  have slogGuard : slogLegal s.cfg h l m.toNat f.toNat = true ↔ 1 ≤ m.toNat ∧
      m.toNat ≤ min (l.bits - 1 - h.log2Bits) (h.bits - 1) ∧ f.toNat ≤ h.bits - 1 := by
    rw [slogLegal_iff, SlogParams, fMax_default hdefault, le_min_iff, and_assoc]
  constructor
  · intro i hi
    obtain ⟨v, answers⟩ := exec_fixed_eq_answerWhen (s := s) hi
    rw [answers]
    exact (answerWhen_of_iff fixedGuard v s).imp_left fun legal p => ⟨v, legal p⟩
  · intro i hi
    obtain ⟨v, answers⟩ := exec_slog_eq_answerWhen (s := s) hi
    rw [answers]
    exact (answerWhen_of_iff slogGuard v s).imp_left fun legal p => ⟨v, legal p⟩

end Sys2Proof.Machine
end

section
/-! SUPPORT. The PUL codec (43_pul_codec.md). PULENC of every v ≥ 1 is one number, ⌊log₂ v⌋ · 2^M + frac, with 1 as
its smallest case; what PULDEC makes of that number, and how it grows with v, are facts about the exponent and the
fraction alone. -/

namespace Sys2Proof.Machine

/-! ### Exponent and fraction -/

/-- With the leading one put back, the fraction is the value scaled to M + 1 bits (43_pul_codec.md R142). -/
theorem two_pow_add_topFraction (M : Nat) {v : Nat} (h0 : v ≠ 0) :
    2 ^ M + topFraction M v = v * 2 ^ M / 2 ^ v.log2 := by
  rw [topFraction, ← Nat.mul_add_div (two_pow_pos _), ← Nat.add_mul,
    Nat.add_sub_cancel' (two_pow_log2_le h0)]

/-- At one exponent the fraction grows with the value. -/
theorem topFraction_le_topFraction (M : Nat) {u v : Nat} (hlog : u.log2 = v.log2) (huv : u ≤ v) :
    topFraction M u ≤ topFraction M v := by
  rw [topFraction, topFraction, hlog]
  exact Nat.div_le_div_right (Nat.mul_le_mul_right _ (Nat.sub_le_sub_right huv _))

/-- Scaling exponent and fraction of v back up drops the bits below the top M + 1: none when v has no more,
else the `v.log2 - M` lowest (43_pul_codec.md R144). -/
theorem scaledUp_topFraction (M : Nat) {v : Nat} (h0 : v ≠ 0) :
    scaledUp M (topFraction M v) v.log2 = topBits M v := by
  rw [scaledUp, topBits, two_pow_add_topFraction M h0]
  split
  · next few =>
    rw [← pow_sub_mul_pow 2 few, ← Nat.mul_assoc, Nat.mul_div_cancel _ (two_pow_pos _), Nat.mul_assoc,
      Nat.mul_div_cancel _ (Nat.mul_pos (two_pow_pos _) (two_pow_pos _))]
  · next many =>
    have shared : 2 ^ v.log2 = 2 ^ (v.log2 - M) * 2 ^ M := (pow_sub_mul_pow 2 (Nat.le_of_not_le many)).symm
    rw [shared, Nat.mul_div_mul_right _ _ (two_pow_pos M), ← Nat.mul_assoc,
      Nat.mul_div_cancel _ (two_pow_pos M)]

theorem topBits_zero (M : Nat) : topBits M 0 = 0 := by simp [topBits]

/-- A power of two has no bit below its leading one to lose (43_pul_codec.md R144). -/
theorem topBits_two_pow (M k : Nat) : topBits M (2 ^ k) = 2 ^ k := by
  rw [topBits, Nat.log2_two_pow]
  split
  · rfl
  · exact Nat.div_mul_cancel (Nat.pow_dvd_pow 2 (Nat.sub_le k M))

theorem decodedValue_of_ge {H M f e : Nat} (he : H ≤ e) : decodedValue H M f e = 2 ^ H - 1 := by
  rw [decodedValue, if_neg (by omega), if_pos (by omega)]

theorem decodedValue_of_lt {H M f e : Nat} (he : e < H) : decodedValue H M f e = scaledUp M f e := by
  rw [decodedValue, if_neg (by omega), if_neg (by omega), Int.toNat_natCast]

/-! ### The codeword of a non-zero value -/

/-- Exponent above, fraction below: the codeword of v ≥ 1 before it is cut to L bits (43_pul_codec.md R142). -/
def pulNumber (M v : Nat) : Nat := v.log2 * 2 ^ M + topFraction M v

theorem pulNumber_one (M : Nat) : pulNumber M 1 = 0 := by
  have hlog : Nat.log2 1 = 0 := Nat.log2_two_pow (n := 0)
  simp [pulNumber, topFraction, hlog]

/-- From 2 on the exponent is at least 1, so no such codeword is the sentinel (43_pul_codec.md R142). -/
theorem two_pow_le_pulNumber (M : Nat) {v : Nat} (h2 : 2 ≤ v) : 2 ^ M ≤ pulNumber M v := by
  have hlog : 1 ≤ v.log2 := (Nat.le_log2 (by omega)).2 h2
  exact (Nat.le_mul_of_pos_left _ hlog).trans (Nat.le_add_right ..)

theorem pulNumber_ne_one {M v : Nat} (hM : 1 ≤ M) (h0 : v ≠ 0) : pulNumber M v ≠ 1 := by
  rcases Nat.lt_or_ge v 2 with hlt | h2
  · obtain rfl : v = 1 := by omega
    rw [pulNumber_one]
    exact zero_ne_one
  · exact ((Nat.one_lt_two_pow (Nat.ne_of_gt hM)).trans_le (two_pow_le_pulNumber M h2)).ne'

/-- Along the integers the codewords do not fall: within one exponent the fraction grows, and a fraction never
reaches the next exponent (43_pul_codec.md R144). -/
theorem pulNumber_le_pulNumber (M : Nat) {u v : Nat} (h0 : u ≠ 0) (huv : u ≤ v) :
    pulNumber M u ≤ pulNumber M v := by
  have hlog : u.log2 ≤ v.log2 := (Nat.le_log2 (by omega)).2 ((two_pow_log2_le h0).trans huv)
  rcases hlog.eq_or_lt with same | lower
  · rw [pulNumber, pulNumber, same]
    exact Nat.add_le_add_left (topFraction_le_topFraction M same huv) _
  · calc u.log2 * 2 ^ M + topFraction M u ≤ (u.log2 + 1) * 2 ^ M := by
          rw [Nat.add_one_mul]
          exact Nat.add_le_add_left (topFraction_lt M h0).le _
      _ ≤ v.log2 * 2 ^ M := Nat.mul_le_mul_right _ lower
      _ ≤ pulNumber M v := Nat.le_add_right ..

theorem pulNumber_lt {h l : Width} {M v : Nat} (legal : PulParams h l M) (h0 : v ≠ 0)
    (hv : v < 2 ^ h.bits) : pulNumber M v < 2 ^ l.bits :=
  (exponent_fraction_lt h0 hv).trans_le (PulParams.fits legal)

/-- PULENC's word of every non-zero value: 1 needs no case of its own (43_pul_codec.md R142). -/
theorem pulEncode_eq_pulNumber {h l : Width} {M v : Nat} (legal : PulParams h l M) (h0 : v ≠ 0)
    (hv : v < 2 ^ h.bits) : pulEncode h.bits l.bits M v = pulNumber M v := by
  rcases Nat.lt_or_ge v 2 with hlt | h2
  · obtain rfl : v = 1 := by omega
    rw [pulEncode_le_one le_rfl, pulNumber_one]
  · exact pulEncode_eq h2 hv legal.2.2 (PulParams.fits legal)

theorem pulDecode_one (H M : Nat) : pulDecode H M 1 = 0 := if_pos rfl

/-- PULDEC of PULENC's word: its exponent is below H, so nothing saturates (43_pul_codec.md R144). -/
theorem pulDecode_pulNumber {h l : Width} {M v : Nat} (legal : PulParams h l M) (h0 : v ≠ 0)
    (hv : v < 2 ^ h.bits) : pulDecode h.bits M (pulNumber M v) = topBits M v := by
  obtain ⟨hM, _, hH⟩ := legal
  rw [pulNumber, pulDecode_eq (bits_pos h) hH (topFraction_lt M h0) (pulNumber_ne_one hM h0),
    decodedValue_of_lt (log2_lt_of_lt h0 hv), scaledUp_topFraction M h0]

/-- Decoding undoes encoding up to the bits below the top M + 1, and exactly at 0, by the sentinel
(43_pul_codec.md R144). -/
theorem pulDecode_pulEncode {h l : Width} {M v : Nat} (legal : PulParams h l M) (hv : v < 2 ^ h.bits) :
    pulDecode h.bits M (pulEncode h.bits l.bits M v) = topBits M v := by
  rcases eq_or_ne v 0 with rfl | h0
  · rw [pulEncode_le_one (Nat.zero_le 1), pulDecode_one, topBits_zero]
  · rw [pulEncode_eq_pulNumber legal h0 hv, pulDecode_pulNumber legal h0 hv]

/-! ### What the two operations answer -/

section
variable {h l : Width} {m : Param} {s : State}

theorem exec_pulenc (legal : PulParams h l m.toNat) :
    exec (.pulenc h l m) s = .next (legalNext s (pulEncode h.bits l.bits m.toNat (s.operand h))) :=
  answerWhen_legal ((pulLegal_iff ..).2 legal) _ s

theorem exec_pulenc_of_ne (legal : PulParams h l m.toNat) (h0 : s.operand h ≠ 0) :
    exec (.pulenc h l m) s = .next (legalNext s (pulNumber m.toNat (s.operand h))) := by
  rw [exec_pulenc legal, pulEncode_eq_pulNumber legal h0 (operand_lt s h)]

theorem exec_puldec (legal : PulParams h l m.toNat) :
    exec (.puldec h l m) s = .next (legalNext s (pulDecode h.bits m.toNat (s.operand l))) :=
  answerWhen_legal ((pulLegal_iff ..).2 legal) _ s

/-- PULDEC of a word other than the sentinel, by its exponent and fraction (43_pul_codec.md R143). -/
theorem exec_puldec_of_parts {e f : Nat} (legal : PulParams h l m.toNat) (hf : f < 2 ^ m.toNat)
    (parts : s.operand l = e * 2 ^ m.toNat + f) (h1 : s.operand l ≠ 1) :
    exec (.puldec h l m) s = .next (legalNext s (decodedValue h.bits m.toNat f e)) := by
  rw [exec_puldec legal, parts, pulDecode_eq (bits_pos h) legal.2.2 hf (parts ▸ h1)]

end

theorem answerWhen_not_pulParams {h l : Width} {m v : Nat} {s : State} (illegal : ¬ PulParams h l m) :
    ∃ t, answerWhen (pulLegal h l m) v s = .next t ∧ IllegalNext s t 3 :=
  (answerWhen_of_iff (pulLegal_iff ..) v s).2 illegal

/-! ### The obligations -/

/-- Settles O30: the two remapped words, and the number of exponent and fraction from 2 on. -/
theorem pulencGivesExponentAndFraction : Obligations.PulencGivesExponentAndFraction := by
  intro h l m s
  refine ⟨decode_requestWord (q := 0) (by decide) rfl, fun legal (small : s.operand h ≤ 1) => ?_,
    fun legal (h2 : 2 ≤ s.operand h) => ?_, answerWhen_not_pulParams⟩
  · rw [exec_pulenc legal, pulEncode_le_one small, State.operand]
  · have h0 : s.operand h ≠ 0 := by omega
    exact ⟨_, exec_pulenc_of_ne legal h0, rfl, topFraction_lt _ h0, two_pow_le_pulNumber _ h2,
      pulNumber_lt legal h0 (operand_lt s h)⟩

/-- Settles O31: the sentinel, and the parts of every other word on either side of the exponent H. -/
theorem puldecGivesTheScaledMantissa : Obligations.PuldecGivesTheScaledMantissa := by
  intro h l m s
  refine ⟨decode_requestWord (q := 0) (by decide) rfl, fun legal (sentinel : s.operand l = 1) => ?_,
    fun legal e f hf parts h1 saturated => ?_, fun legal e f hf parts h1 inRange => ?_,
    answerWhen_not_pulParams⟩
  · rw [exec_puldec legal, sentinel, pulDecode_one]
  · rw [exec_puldec_of_parts legal hf parts h1, decodedValue_of_ge saturated]
  · rw [exec_puldec_of_parts legal hf parts h1, decodedValue_of_lt inRange]

/-- Settles O32: PULENC's word fits L bits, so PULDEC reads it back whole. -/
theorem pulRoundTripKeepsTheTopBits : Obligations.PulRoundTripKeepsTheTopBits := by
  intro h l m s legal
  have fits : pulEncode h.bits l.bits m.toNat (s.operand h) < 2 ^ l.bits := pulEncode_lt (bits_pos l) ..
  refine ⟨⟨_, exec_pulenc legal, ?_⟩, fun k _ => topBits_two_pow _ k, topBits_zero _⟩
  rw [exec_puldec legal, operand_withOperand fits, pulDecode_pulEncode legal (operand_lt s h),
    State.operand]

/-- Settles O33: both words are the numbers of non-zero values. -/
theorem pulencIsMonotone : Obligations.PulencIsMonotone := by
  intro h l m s s' legal (hu : 1 ≤ s.operand h) (huv : s.operand h ≤ s'.operand h)
  have hu0 : s.operand h ≠ 0 := by omega
  have hv0 : s'.operand h ≠ 0 := by omega
  exact ⟨_, _, exec_pulenc_of_ne legal hu0, exec_pulenc_of_ne legal hv0,
    pulNumber_lt legal hu0 (operand_lt s h), pulNumber_lt legal hv0 (operand_lt s' h),
    pulNumber_le_pulNumber _ hu0 huv⟩

end Sys2Proof.Machine
end

section
/-! SUPPORT. The correction tables of the SLOG codec (44_slog_codec.md R165). A correction is an entry scaled
to M bits, so a bound on the entries is a bound on the corrections, and an entry 0 of value 0 is a correction 0 of
the fraction 0. -/

namespace Sys2Proof.Machine

/-! ### The fraction 0 -/

theorem idx8_zero (M : Nat) : idx8 0 M = 0 := by rw [idx8_eq, Nat.zero_mul, Nat.zero_div]

theorem scaleM_zero (q M : Nat) : scaleM q 0 M = 0 := by rw [scaleM_eq, Nat.zero_mul, Nat.zero_div]

theorem ecorr_zero {c : Config} (entry : tableEntry c.encLut 0 = 0) (M : Nat) : ecorr c 0 M = 0 := by
  rw [ecorr, idx8_zero, entry, scaleM_zero]

theorem dcorr_zero {c : Config} (entry : tableEntry c.decLut 0 = 0) (M : Nat) : dcorr c 0 M = 0 := by
  rw [dcorr, idx8_zero, entry, scaleM_zero]

/-! ### The default tables -/

theorem tableEntry_quadraticLut (c : Nat) {i : Nat} (hi : i < 256) :
    tableEntry (Config.quadraticLut c) i = c * i * (256 - i) := by
  rw [tableEntry_lt _ hi, quadraticLut_getElem c hi]

theorem tableEntry_quadraticLut_zero (c : Nat) : tableEntry (Config.quadraticLut c) 0 = 0 := by
  rw [tableEntry_quadraticLut c (by decide), Nat.mul_zero, Nat.zero_mul]

/-- The largest entry is c · 2^14, which stands for c/1024 at `LUT_Q` = 24 (44_slog_codec.md R165). -/
theorem scaleM_quadraticLut_le (c : Nat) {f M : Nat} (hf : f < 2 ^ M) :
    1024 * scaleM 24 (tableEntry (Config.quadraticLut c) (idx8 f M)) M ≤ c * 2 ^ M := by
  have entry : tableEntry (Config.quadraticLut c) (idx8 f M) ≤ c * 16384 := by
    rw [tableEntry_lt _ (idx8_lt hf)]
    exact quadraticLut_getElem_le c (idx8_lt hf)
  have scaled := Nat.mul_le_mul_right (2 ^ M) entry
  rw [Nat.mul_right_comm] at scaled
  rw [scaleM_eq]
  omega

/-- Entry i is at most c · 256 · i, and the index is at most 256 · f/2^M; so for c ≤ 256 the correction is at
most the fraction (44_slog_codec.md R165). -/
theorem scaleM_quadraticLut_le_fraction {c f M : Nat} (hc : c ≤ 256) (hf : f < 2 ^ M) :
    scaleM 24 (tableEntry (Config.quadraticLut c) (idx8 f M)) M ≤ f := by
  have index : idx8 f M * 2 ^ M ≤ f * 256 := by
    rw [idx8_eq]
    exact Nat.div_mul_le_self ..
  rw [tableEntry_quadraticLut c (idx8_lt hf), scaleM_eq]
  refine Nat.div_le_of_le_mul ?_
  calc c * idx8 f M * (256 - idx8 f M) * 2 ^ M
      ≤ 256 * idx8 f M * 256 * 2 ^ M :=
        Nat.mul_le_mul_right _ (Nat.mul_le_mul (Nat.mul_le_mul_right _ hc) (Nat.sub_le ..))
    _ = 256 * 256 * (idx8 f M * 2 ^ M) := by ring
    _ ≤ 256 * 256 * (f * 256) := Nat.mul_le_mul_left _ index
    _ = 2 ^ 24 * f := by ring

theorem dcorr_default_le {f M : Nat} (hf : f < 2 ^ M) : dcorr Config.default f M ≤ f :=
  scaleM_quadraticLut_le_fraction (by decide) hf

theorem configSound_default : ConfigSound Config.default :=
  ⟨tableEntry_quadraticLut_zero 89, tableEntry_quadraticLut_zero 88, fun _ _ hf => dcorr_default_le hf⟩

/-- Settles O39: the corrections in closed form, and the two bounds on the parabolas with c = 89 and c = 88. -/
theorem correctionsAreTheScaledTableEntries : Obligations.CorrectionsAreTheScaledTableEntries := by
  obtain ⟨encEntry, decEntry, _⟩ := configSound_default
  exact ⟨fun c f M hf => ⟨idx8_lt hf, ecorr_eq c f M, dcorr_eq c f M⟩,
    fun _ _ hf => ⟨scaleM_quadraticLut_le 89 hf, scaleM_quadraticLut_le 88 hf, dcorr_default_le hf⟩,
    fun M => ⟨ecorr_zero encEntry M, dcorr_zero decEntry M⟩⟩

/-- Settles O10: no response stands at the port, and the tables are the default ones. -/
theorem resetHasTheInvariant : Obligations.ResetHasTheInvariant :=
  ⟨fun _ present => absurd present.symm (Option.some_ne_none _), configSound_default⟩

end Sys2Proof.Machine
end

section
/-! SUPPORT. The SLOG encoders (44_slog_codec.md R161, R166). The word of v ≠ 0 is the L-bit pattern of one signed
number, exponent above and fraction below, and for F ≤ H − 1 it is read back as that number. Without a correction
the number is PULENC's, moved down by F exponents, so SLOGENC inherits its order. -/

namespace Sys2Proof.Machine

/-! ### The codeword of a non-zero value -/

/-- Exponent ⌊log₂ v⌋ − F above, the fraction g below: the SLOG codeword of v before it is cut to L bits
(44_slog_codec.md R162). -/
def slogNumber (M F v g : Nat) : Int := ((v.log2 : Int) - F) * 2 ^ M + g

/-- Without a correction it is the PUL number, F exponents lower. -/
theorem slogNumber_topFraction (M F v : Nat) :
    slogNumber M F v (topFraction M v) = pulNumber M v - F * 2 ^ M := by
  rw [slogNumber, pulNumber]
  push_cast
  ring

theorem natCast_trunc (n : Nat) (x : Int) : (trunc n x : Int) = x % 2 ^ n :=
  Int.toNat_of_nonneg (Int.emod_nonneg _ (by positivity))

/-- The sentinel reads as the least signed number (44_slog_codec.md R161). -/
theorem signedAt_two_pow_pred {n : Nat} (hn : 0 < n) : signedAt n (2 ^ (n - 1)) = -(2 ^ (n - 1)) := by
  rw [← trunc_neg_two_pow_pred hn]
  exact signedAt_trunc hn le_rfl (neg_lt_self (by positivity))

theorem fMax_congr {c c' : Config} (same : c.fMax = c'.fMax) (h : Width) : fMax c h = fMax c' h := by
  rw [← fMaxAt_bits, ← fMaxAt_bits, fMaxAt, fMaxAt, same]

theorem slogEncode_zero (H L M F : Nat) : slogEncode H L M F 0 = 2 ^ (L - 1) := if_pos rfl

theorem slogEncodeCorrected_zero (c : Config) (H L M F : Nat) :
    slogEncodeCorrected c H L M F 0 = 2 ^ (L - 1) := if_pos rfl

section
variable {c : Config} {h l : Width} {M F v g : Nat}

/-- The word is read back as the number (44_slog_codec.md R162). -/
theorem signedAt_trunc_slogNumber (legal : SlogParams c h l M F) (hF : F ≤ h.bits - 1) (h0 : v ≠ 0)
    (hv : v < 2 ^ h.bits) (hg : g < 2 ^ M) :
    signedAt l.bits (trunc l.bits (slogNumber M F v g)) = slogNumber M F v g := by
  obtain ⟨low, high⟩ := slogNumber_range h0 hv hF (SlogParams.fits legal) hg
  exact signedAt_trunc (bits_pos l) low.le high

/-- A non-zero value never gets the sentinel (44_slog_codec.md R162). -/
theorem trunc_slogNumber_ne_sentinel (legal : SlogParams c h l M F) (hF : F ≤ h.bits - 1) (h0 : v ≠ 0)
    (hv : v < 2 ^ h.bits) (hg : g < 2 ^ M) : trunc l.bits (slogNumber M F v g) ≠ 2 ^ (l.bits - 1) := by
  intro sentinel
  have readBack := signedAt_trunc_slogNumber legal hF h0 hv hg
  rw [sentinel, signedAt_two_pow_pred (bits_pos l)] at readBack
  exact (slogNumber_range h0 hv hF (SlogParams.fits legal) hg).1.ne readBack

theorem SlogParams.mantissa_le (legal : SlogParams c h l M F) : M ≤ h.bits - 1 := by
  obtain ⟨_, _, hH, _⟩ := legal
  exact hH

/-- A legal SLOG budget is one bit short of the PUL budget of the same widths (41_bit_primitives.md R109). -/
theorem SlogParams.toPulParams (legal : SlogParams c h l M F) : PulParams h l M := by
  obtain ⟨hM, hL, hH, _⟩ := legal
  exact ⟨hM, by omega, hH⟩

end

/-! ### What the two encoders answer -/

section
variable {h l : Width} {m f : Param} {s : State}

theorem exec_slogenc (legal : SlogParams s.cfg h l m.toNat f.toNat) :
    exec (.slogenc h l m f) s =
      .next (legalNext s (slogEncode h.bits l.bits m.toNat f.toNat (s.operand h))) :=
  answerWhen_legal ((slogLegal_iff ..).2 legal) _ s

theorem exec_slogencc (legal : SlogParams s.cfg h l m.toNat f.toNat) :
    exec (.slogencc h l m f) s =
      .next (legalNext s (slogEncodeCorrected s.cfg h.bits l.bits m.toNat f.toNat (s.operand h))) :=
  answerWhen_legal ((slogLegal_iff ..).2 legal) _ s

theorem exec_slogenc_of_ne (legal : SlogParams s.cfg h l m.toNat f.toNat) (h0 : s.operand h ≠ 0) :
    exec (.slogenc h l m f) s = .next (legalNext s (trunc l.bits
      (slogNumber m.toNat f.toNat (s.operand h) (topFraction m.toNat (s.operand h))))) := by
  rw [exec_slogenc legal, slogEncode_eq h0 (operand_lt s h) (SlogParams.mantissa_le legal), slogNumber]

theorem exec_slogencc_of_ne (legal : SlogParams s.cfg h l m.toNat f.toNat) (h0 : s.operand h ≠ 0) :
    exec (.slogencc h l m f) s = .next (legalNext s (trunc l.bits
      (slogNumber m.toNat f.toNat (s.operand h)
        (correctedFraction s.cfg m.toNat (topFraction m.toNat (s.operand h)))))) := by
  rw [exec_slogencc legal, slogEncodeCorrected_eq h0 (operand_lt s h) (SlogParams.mantissa_le legal), slogNumber]

end

theorem answerWhen_not_slogParams {h l : Width} {m f v : Nat} {s : State}
    (illegal : ¬ SlogParams s.cfg h l m f) :
    ∃ t, answerWhen (slogLegal s.cfg h l m f) v s = .next t ∧ IllegalNext s t 3 :=
  (answerWhen_of_iff (slogLegal_iff ..) v s).2 illegal

/-! ### The obligations on the encoders -/

/-- Settles O34: the sentinel for 0, and else the pattern of the number with the value's own fraction. -/
theorem slogencGivesExponentAndFraction : Obligations.SlogencGivesExponentAndFraction := by
  intro h l m f s
  refine ⟨decode_requestWord (by decide) rfl, fun legal (zero : s.operand h = 0) => ?_,
    fun legal (h0 : s.operand h ≠ 0) => ?_, answerWhen_not_slogParams⟩
  · rw [exec_slogenc legal, zero, slogEncode_zero]
  · have hv := operand_lt s h
    have hg := topFraction_lt m.toNat h0
    exact ⟨_, _, exec_slogenc_of_ne legal h0, trunc_lt .., rfl, hg, natCast_trunc ..,
      fun hF => ⟨signedAt_trunc_slogNumber legal hF h0 hv hg, trunc_slogNumber_ne_sentinel legal hF h0 hv hg⟩⟩

/-- Settles O36: as SLOGENC, and the clamped fraction still has M bits. -/
theorem slogenccAddsTheClampedCorrection : Obligations.SlogenccAddsTheClampedCorrection := by
  intro h l m f s
  refine ⟨decode_requestWord (by decide) rfl, fun legal (zero : s.operand h = 0) => ?_,
    fun legal (h0 : s.operand h ≠ 0) => ?_, answerWhen_not_slogParams⟩
  · rw [exec_slogencc legal, zero, slogEncodeCorrected_zero]
  · have hv := operand_lt s h
    have hg := correctedFraction_lt s.cfg m.toNat (topFraction m.toNat (s.operand h))
    refine ⟨_, _, _, exec_slogencc_of_ne legal h0, trunc_lt .., rfl, ?_, natCast_trunc ..,
      fun hF => ⟨signedAt_trunc_slogNumber legal hF h0 hv hg, trunc_slogNumber_ne_sentinel legal hF h0 hv hg⟩⟩
    rw [slogNumber, correctedFraction, ecorr_eq]
    rfl

/-- Settles O42: both words are read back as their numbers, which are ordered as PULENC's. -/
theorem slogencIsMonotone : Obligations.SlogencIsMonotone := by
  intro h l m f s s' legal sameBound hF (hu0 : s.operand h ≠ 0) (huv : s.operand h ≤ s'.operand h)
  have hv0 : s'.operand h ≠ 0 := by omega
  have legal' : SlogParams s'.cfg h l m.toNat f.toNat := by
    rw [SlogParams, fMax_congr sameBound]
    exact legal
  refine ⟨_, _, exec_slogenc_of_ne legal hu0, exec_slogenc_of_ne legal' hv0, ?_⟩
  rw [signedAt_trunc_slogNumber legal hF hu0 (operand_lt s h) (topFraction_lt _ hu0),
    signedAt_trunc_slogNumber legal' hF hv0 (operand_lt s' h) (topFraction_lt _ hv0),
    slogNumber_topFraction, slogNumber_topFraction]
  exact Int.sub_le_sub_right (Int.ofNat_le.2 (pulNumber_le_pulNumber _ hu0 huv)) _

/-- Settles O44: for F = 0 the number is PULENC's, and it fits L bits as a PUL codeword. -/
theorem slogWordOfAnIntegerIsItsPulWord : Obligations.SlogWordOfAnIntegerIsItsPulWord := by
  intro h l m s legal (hv : 1 ≤ s.operand h)
  have h0 : s.operand h ≠ 0 := by omega
  have pulLegal := SlogParams.toPulParams legal
  have word : trunc l.bits (slogNumber m.toNat 0 (s.operand h) (topFraction m.toNat (s.operand h))) =
      pulNumber m.toNat (s.operand h) := by
    rw [slogNumber_topFraction, Nat.cast_zero, zero_mul, sub_zero, trunc_natCast,
      Nat.mod_eq_of_lt (pulNumber_lt pulLegal h0 (operand_lt s h))]
  refine ⟨_, ?_, exec_pulenc_of_ne pulLegal h0⟩
  rw [← word]
  exact exec_slogenc_of_ne (f := 0) legal h0

end Sys2Proof.Machine
end

section
/-! SUPPORT. The SLOG decoders and the round trip (44_slog_codec.md R163, R167, R169). A word e · 2^M + g splits into
the exponent e and the fraction g under FLOOR, and under either reading where e ≥ 0 or g = 0; with that, decoding
an encoding is a fact about the exponent and the fraction alone. -/

namespace Sys2Proof.Machine

/-! ### Where the two readings agree -/

/-- AS_WRITTEN takes the parts of |x|: those of x for e ≥ 0, and for g = 0 the same exponent with its sign
(44_slog_codec.md R163; 93_implementation_defined.md U6). -/
theorem partsOf_exponent_fraction {neg : SlogdecNeg} {M g : Nat} {e : Int} (hg : g < 2 ^ M)
    (inverts : 0 ≤ e ∨ g = 0 ∨ neg = .floor) : PartsOf neg M (e * 2 ^ M + g) e g := by
  refine ⟨hg, ?_⟩
  cases neg with
  | floor => rfl
  | asWritten =>
    have hp : (0 : Int) < 2 ^ M := by positivity
    rcases Int.lt_or_le e 0 with negative | nonneg
    · obtain rfl : g = 0 := by simpa [negative.not_ge] using inverts
      have below : e * 2 ^ M < 0 := mul_neg_of_neg_of_pos negative hp
      refine ⟨e.natAbs, ?_, ?_⟩
      · simp [Int.natAbs_mul, Int.natAbs_pow]
      · rw [if_pos (by simpa using below)]
        omega
    · obtain ⟨k, rfl⟩ := Int.eq_ofNat_of_zero_le nonneg
      exact ⟨k, by norm_cast, by rw [if_neg (not_lt.2 (by positivity))]⟩

/-- A non-negative word and one whose low M bits are zero have the floor parts under either reading. -/
theorem partsOf_floor_parts (neg : SlogdecNeg) {M : Nat} {x : Int} (agree : 0 ≤ x ∨ 2 ^ M ∣ x) :
    PartsOf neg M x (x / 2 ^ M) (x % 2 ^ M).toNat := by
  have hp : (0 : Int) < 2 ^ M := by positivity
  have fraction : ((x % 2 ^ M).toNat : Int) = x % 2 ^ M := natCast_trunc M x
  have parts := partsOf_exponent_fraction (neg := neg) (e := x / 2 ^ M) (trunc_lt M x)
    (agree.imp (fun nonneg => Int.ediv_nonneg nonneg hp.le)
      fun whole => .inl (by rw [trunc, Int.emod_eq_zero_of_dvd whole, Int.toNat_zero]))
  rwa [trunc, fraction, Int.ediv_mul_add_emod] at parts

/-- Reading as signed changes no bit below the width. -/
theorem two_pow_dvd_signedAt {M n x : Nat} (hM : M ≤ n) (whole : 2 ^ M ∣ x) :
    (2 ^ M : Int) ∣ signedAt n x := by
  have sameLowBits : ((2 ^ n : Nat) : Int) ∣ signedAt n x - x := by
    rw [signedAt, ← BitVec.ofInt_natCast, BitVec.toInt_ofInt]
    exact Int.dvd_bmod_sub_self
  have dividesWidth : (2 ^ M : Int) ∣ (2 ^ n : Nat) := by exact_mod_cast pow_dvd_pow 2 hM
  have wholeInt : (2 ^ M : Int) ∣ x := by exact_mod_cast whole
  exact (dvd_sub_left wholeInt).1 (dividesWidth.trans sameLowBits)

/-! ### Decoding an encoding -/

section
variable {c : Config} {h l : Width} {M F v g : Nat} {fix : Nat → Nat} {neg : SlogdecNeg}

/-- A decoder with the encoder's F gives back the exponent of v, below H, so nothing underflows or saturates
(44_slog_codec.md R169). -/
theorem slogDecodeWith_trunc_slogNumber (legal : SlogParams c h l M F) (hF : F ≤ h.bits - 1) (h0 : v ≠ 0)
    (hv : v < 2 ^ h.bits) (hg : g < 2 ^ M) (hfix : fix g < 2 ^ M)
    (inverts : F ≤ v.log2 ∨ g = 0 ∨ neg = .floor) :
    slogDecodeWith fix neg h.bits l.bits M F (trunc l.bits (slogNumber M F v g)) =
      scaledUp M (fix g) v.log2 := by
  have parts : PartsOf neg M (slogNumber M F v g) (v.log2 - F) g :=
    partsOf_exponent_fraction hg (inverts.imp_left fun _ => by omega)
  rw [← signedAt_trunc_slogNumber legal hF h0 hv hg] at parts
  rw [slogDecodeWith_eq (bits_pos l) (trunc_lt ..) (SlogParams.mantissa_le legal)
    (trunc_slogNumber_ne_sentinel legal hF h0 hv hg) parts hfix, sub_add_cancel,
    decodedValue_of_lt (log2_lt_of_lt h0 hv)]

/-- Uncorrected, decoding keeps the top M + 1 bits where the reading inverts the encoder (44_slog_codec.md R169;
90_conflicts.md C3). -/
theorem slogDecodeWith_slogEncode (legal : SlogParams c h l M F) (hF : F ≤ h.bits - 1)
    (hv : v < 2 ^ h.bits) (inverts : 2 ^ F ≤ v ∨ neg = .floor) :
    slogDecodeWith id neg h.bits l.bits M F (slogEncode h.bits l.bits M F v) = topBits M v := by
  rcases eq_or_ne v 0 with rfl | h0
  · rw [slogEncode_zero, slogDecodeWith_sentinel, topBits_zero]
  · have hg := topFraction_lt M h0
    rw [slogEncode_eq h0 hv (SlogParams.mantissa_le legal), ← slogNumber,
      slogDecodeWith_trunc_slogNumber legal hF h0 hv hg hg
        (inverts.imp (Nat.le_log2 h0).2 .inr), id_eq, scaledUp_topFraction M h0]

theorem topFraction_two_pow (M k : Nat) : topFraction M (2 ^ k) = 0 := by
  rw [topFraction, Nat.log2_two_pow, Nat.sub_self, Nat.zero_mul, Nat.zero_div]

/-- A power of two has the fraction 0, with which both readings invert the encoder; so the number decodes to it
whenever the correction leaves 0 alone (44_slog_codec.md R169). -/
theorem slogDecodeWith_two_pow {k : Nat} (legal : SlogParams c h l M F) (hF : F ≤ h.bits - 1)
    (hk : k < h.bits) (hfix : fix 0 = 0) :
    slogDecodeWith fix neg h.bits l.bits M F (trunc l.bits (slogNumber M F (2 ^ k) 0)) = 2 ^ k := by
  have h0 : 2 ^ k ≠ 0 := (two_pow_pos k).ne'
  have hg : 0 < 2 ^ M := two_pow_pos M
  rw [slogDecodeWith_trunc_slogNumber legal hF h0 (Nat.pow_lt_pow_right one_lt_two hk) hg (hfix.trans_lt hg)
    (.inr (.inl rfl)), hfix, ← topFraction_two_pow M k, scaledUp_topFraction M h0, topBits_two_pow]

end

/-! ### What the two decoders answer -/

section
variable {h l : Width} {m f : Param} {s : State}

theorem exec_slogdec (legal : SlogParams s.cfg h l m.toNat f.toNat) :
    exec (.slogdec h l m f) s = .next (legalNext s
      (slogDecodeWith id s.cfg.slogdecNeg h.bits l.bits m.toNat f.toNat (s.operand l))) :=
  answerWhen_legal ((slogLegal_iff ..).2 legal) _ s

theorem exec_slogdecc (legal : SlogParams s.cfg h l m.toNat f.toNat) :
    exec (.slogdecc h l m f) s = .next (legalNext s
      (slogDecodeWith (fun x => x - dcorr s.cfg x m.toNat) s.cfg.slogdecNeg h.bits l.bits m.toNat f.toNat
        (s.operand l))) :=
  answerWhen_legal ((slogLegal_iff ..).2 legal) _ s

theorem signedAt_operand (s : State) (w : Width) :
    signedAt w.bits (s.operand w) = signedAt w.bits s.a.toNat := by
  rw [← operandS_eq, State.operandS, sint_eq_toInt (bits_pos w) (operand_lt s w), signedAt]

theorem exec_slogdec_of_sentinel (legal : SlogParams s.cfg h l m.toNat f.toNat)
    (sentinel : s.operand l = 2 ^ (l.bits - 1)) :
    exec (.slogdec h l m f) s = .next (legalNext s 0) := by
  rw [exec_slogdec legal, sentinel, slogDecodeWith_sentinel]

/-- SLOGDEC of a word other than the sentinel, by its parts (44_slog_codec.md R163). -/
theorem exec_slogdec_of_parts {E : Int} {x : Nat} (legal : SlogParams s.cfg h l m.toNat f.toNat)
    (ordinary : s.operand l ≠ 2 ^ (l.bits - 1))
    (parts : PartsOf s.cfg.slogdecNeg m.toNat (signedAt l.bits s.a.toNat) E x) :
    exec (.slogdec h l m f) s =
      .next (legalNext s (decodedValue h.bits m.toNat x (E + f.toNat))) := by
  have hx : id x < 2 ^ m.toNat := parts.1
  rw [← signedAt_operand] at parts
  rw [exec_slogdec legal,
    slogDecodeWith_eq (bits_pos l) (operand_lt s l) (SlogParams.mantissa_le legal) ordinary parts hx, id_eq]

/-- SLOGDECC of a word other than the sentinel, by its parts: the correction comes off the fraction, down to 0
(44_slog_codec.md R167; log entry 6). -/
theorem exec_slogdecc_of_parts {E : Int} {x : Nat} (legal : SlogParams s.cfg h l m.toNat f.toNat)
    (ordinary : s.operand l ≠ 2 ^ (l.bits - 1))
    (parts : PartsOf s.cfg.slogdecNeg m.toNat (signedAt l.bits s.a.toNat) E x) :
    exec (.slogdecc h l m f) s = .next (legalNext s (decodedValue h.bits m.toNat
      (x - correction s.cfg.decLut s.cfg.lutQ x m.toNat) (E + f.toNat))) := by
  have hx : x - dcorr s.cfg x m.toNat < 2 ^ m.toNat := (Nat.sub_le ..).trans_lt parts.1
  rw [← signedAt_operand] at parts
  rw [exec_slogdecc legal,
    slogDecodeWith_eq (bits_pos l) (operand_lt s l) (SlogParams.mantissa_le legal) ordinary parts hx, dcorr_eq]

end

/-! ### The obligations on the decoders -/

/-- Settles O35: the sentinel, and else the parts that the model's split gives. -/
theorem slogdecGivesTheScaledMantissa : Obligations.SlogdecGivesTheScaledMantissa := by
  intro h l m f s
  refine ⟨decode_requestWord (by decide) rfl, exec_slogdec_of_sentinel, fun legal ordinary => ?_,
    answerWhen_not_slogParams⟩
  have parts : PartsOf s.cfg.slogdecNeg m.toNat (signedAt l.bits s.a.toNat) _ _ := partsOf_iff.2 rfl
  exact ⟨_, _, parts, exec_slogdec_of_parts legal ordinary parts⟩

/-- Settles O37: under R165's condition nothing is cut off at 0. -/
theorem slogdeccSubtractsTheCorrection : Obligations.SlogdeccSubtractsTheCorrection := by
  intro h l m f s
  refine ⟨decode_requestWord (by decide) rfl, fun legal (sentinel : s.operand l = _) => ?_,
    fun legal ordinary E x parts bounded => ?_, answerWhen_not_slogParams⟩
  · rw [exec_slogdecc legal, sentinel, slogDecodeWith_sentinel]
  · exact ⟨_, Nat.sub_add_cancel bounded, exec_slogdecc_of_parts legal ordinary parts⟩

/-- Settles O38: a difference of natural numbers is cut off at 0. -/
theorem slogdeccClampsAnOversizedCorrection : Obligations.SlogdeccClampsAnOversizedCorrection := by
  intro h l m f s legal ordinary E x parts oversized
  rw [exec_slogdecc_of_parts legal ordinary parts, Nat.sub_eq_zero_of_le oversized.le]

/-- Settles O45: the sentinel is 0 and the floor parts are parts under both readings. -/
theorem slogdecReadingsAgreeOnNonNegativeAndZeroMantissa :
    Obligations.SlogdecReadingsAgreeOnNonNegativeAndZeroMantissa := by
  intro h l m f s legal agree
  have hM : m.toNat ≤ l.bits := by
    obtain ⟨_, hL, _, _⟩ := legal
    omega
  have agree' : 0 ≤ signedAt l.bits s.a.toNat ∨ (2 ^ m.toNat : Int) ∣ signedAt l.bits s.a.toNat :=
    agree.imp_right fun low => two_pow_dvd_signedAt hM (Nat.dvd_of_mod_eq_zero low)
  by_cases sentinel : s.operand l = 2 ^ (l.bits - 1)
  · exact ⟨0, fun neg => exec_slogdec_of_sentinel (s := { s with cfg := { s.cfg with slogdecNeg := neg } })
      legal sentinel⟩
  · exact ⟨_, fun neg => exec_slogdec_of_parts (s := { s with cfg := { s.cfg with slogdecNeg := neg } })
      legal sentinel (partsOf_floor_parts neg agree')⟩

/-! ### The obligations on the round trip -/

/-- Settles O41: SLOGENC's word fits L bits, so SLOGDEC reads it back whole. -/
theorem slogRoundTripKeepsTheTopBits : Obligations.SlogRoundTripKeepsTheTopBits := by
  intro h l m f s legal hF inverts
  have fits : slogEncode h.bits l.bits m.toNat f.toNat (s.operand h) < 2 ^ l.bits :=
    slogEncode_lt (bits_pos l) ..
  refine ⟨_, exec_slogenc legal, ?_⟩
  rw [exec_slogdec (s := s.withOperand _) legal, operand_withOperand fits, State.withOperand_cfg,
    slogDecodeWith_slogEncode legal hF (operand_lt s h) inverts, State.operand]

/-- Settles O40: the fraction 0 of a power of two gets entry 0 as its encode correction, and the clamp lets no
decode correction take anything off it. -/
theorem powersOfTwoSurviveTheSlogRoundTrip : Obligations.PowersOfTwoSurviveTheSlogRoundTrip := by
  intro h l m f s k legal hF hk (power : s.operand h = 2 ^ k)
  have h0 : s.operand h ≠ 0 := power ▸ (two_pow_pos k).ne'
  have fits := trunc_lt l.bits (slogNumber m.toNat f.toNat (2 ^ k) 0)
  constructor
  · have encodes := exec_slogenc_of_ne legal h0
    rw [power, topFraction_two_pow] at encodes
    refine ⟨_, encodes, ?_⟩
    rw [exec_slogdec (s := s.withOperand _) legal, operand_withOperand fits, slogDecodeWith_two_pow legal hF hk rfl]
  · intro encEntry _
    have encodes := exec_slogencc_of_ne legal h0
    rw [power, topFraction_two_pow, correctedFraction, ecorr_zero ((tableEntry_lt _ _).trans encEntry),
      Nat.add_zero, Nat.zero_min] at encodes
    refine ⟨_, encodes, ?_⟩
    rw [exec_slogdecc (s := s.withOperand _) legal, operand_withOperand fits, State.withOperand_cfg,
      slogDecodeWith_two_pow (fix := fun x => x - dcorr s.cfg x m.toNat) legal hF hk (Nat.zero_sub _)]

end Sys2Proof.Machine
end

section
/-! SUPPORT. The transcoders (45_transcoders.md). All four have one form: one pattern is remapped, every other is
realigned and cut to L_out bits. Realigning exponent · 2^M + fraction keeps the exponent and rescales the fraction
alone, so the codeword of v with the budget M_in is realigned to that of v with a smaller M_out. -/

namespace Sys2Proof.Machine

/-! ### The realignment -/

/-- To a budget that does not shrink the realignment loses nothing (45_transcoders.md R195). -/
theorem realigned_mul_two_pow {mi mo : Nat} (grows : mi ≤ mo) (x : Int) :
    realigned x mi mo * 2 ^ mi = x * 2 ^ mo :=
  Int.ediv_mul_cancel ((pow_dvd_pow 2 grows).mul_left x)

/-- The exponent stays, whatever its sign; only the fraction is rescaled, with floor. -/
theorem realigned_exponent_fraction (e : Int) (f mi mo : Nat) :
    realigned (e * 2 ^ mi + f) mi mo = e * 2 ^ mo + (f * 2 ^ mo / 2 ^ mi : Nat) := by
  rw [realigned, add_mul, mul_right_comm, add_comm, Int.add_mul_ediv_right _ _ (by positivity), add_comm]
  push_cast
  rfl

/-- A shorter fraction of v is the longer one without its low bits. -/
theorem topFraction_rescale {mi mo : Nat} (narrows : mo ≤ mi) (v : Nat) :
    topFraction mi v * 2 ^ mo / 2 ^ mi = topFraction mo v := by
  rw [topFraction, topFraction, ← pow_sub_mul_pow 2 narrows, Nat.mul_div_mul_right _ _ (two_pow_pos mo),
    Nat.div_div_eq_div_mul, Nat.mul_left_comm, Nat.mul_comm (2 ^ v.log2),
    Nat.mul_div_mul_left _ _ (two_pow_pos (mi - mo))]

theorem realigned_slogNumber {mi mo : Nat} (narrows : mo ≤ mi) (F v : Nat) :
    realigned (slogNumber mi F v (topFraction mi v)) mi mo = slogNumber mo F v (topFraction mo v) := by
  rw [slogNumber, realigned_exponent_fraction, topFraction_rescale narrows, slogNumber]

/-- For F = 0 the SLOG number is the PUL number (44_slog_codec.md R162). -/
theorem slogNumber_zero (M v : Nat) : slogNumber M 0 v (topFraction M v) = pulNumber M v := by
  rw [slogNumber_topFraction, Nat.cast_zero, zero_mul, sub_zero]

theorem realigned_pulNumber {mi mo : Nat} (narrows : mo ≤ mi) (v : Nat) :
    realigned (pulNumber mi v) mi mo = pulNumber mo v := by
  rw [← slogNumber_zero, realigned_slogNumber narrows, slogNumber_zero]

section
variable {lo : Width} {mi mo : Param} {x : Int}

theorem transcode_eq_trunc : transcode lo mi mo x = trunc lo.bits (realigned x mi.toNat mo.toNat) :=
  transcode_eq lo mi mo x

/-- A result that fits a PUL output is read there as itself, which to a budget that does not shrink is the value
of x (45_transcoders.md R195). -/
theorem natCast_transcode_of_fits (low : 0 ≤ realigned x mi.toNat mo.toNat)
    (high : realigned x mi.toNat mo.toNat < 2 ^ lo.bits) :
    (transcode lo mi mo x : Int) = realigned x mi.toNat mo.toNat ∧
      (mi.toNat ≤ mo.toNat → (transcode lo mi mo x : Int) * 2 ^ mi.toNat = x * 2 ^ mo.toNat) := by
  rw [transcode_eq_trunc, natCast_trunc, Int.emod_eq_of_lt low high]
  exact ⟨rfl, fun grows => realigned_mul_two_pow grows x⟩

/-- The same of a SLOG output and its signed reading (45_transcoders.md R195). -/
theorem signedAt_transcode_of_fits (low : -(2 ^ (lo.bits - 1)) < realigned x mi.toNat mo.toNat)
    (high : realigned x mi.toNat mo.toNat < 2 ^ (lo.bits - 1)) :
    signedAt lo.bits (transcode lo mi mo x) = realigned x mi.toNat mo.toNat ∧
      (mi.toNat ≤ mo.toNat → signedAt lo.bits (transcode lo mi mo x) * 2 ^ mi.toNat = x * 2 ^ mo.toNat) := by
  rw [transcode_eq_trunc, signedAt_trunc (bits_pos lo) low.le high]
  exact ⟨rfl, fun grows => realigned_mul_two_pow grows x⟩

end

/-! ### What the four transcoders answer -/

/-- The result `x` at `s` is that of an operation that answers `z` where `remapped` holds and `w` elsewhere,
both when its parameters are legal, and raises cause 3 when they are not. -/
structure Remaps (legal remapped : Prop) (z w : Nat) (s : State) (x : Result) : Prop where
  sentinel : legal → remapped → x = .next (legalNext s z)
  ordinary : legal → ¬ remapped → x = .next (legalNext s w)
  illegal : ¬ legal → ∃ t, x = .next t ∧ IllegalNext s t 3

/-- The form of the four meanings: a guard on both sides and one remapped pattern. -/
theorem remaps_answerWhen {b b' : Bool} {P P' remapped : Prop} [Decidable remapped] (hb : b = true ↔ P)
    (hb' : b' = true ↔ P') (z w : Nat) (s : State) :
    Remaps (P ∧ P') remapped z w s (answerWhen (b && b') (if remapped then z else w) s) := by
  have guard : (b && b') = true ↔ P ∧ P' := by rw [Bool.and_eq_true, hb, hb']
  obtain ⟨answers, raises⟩ := answerWhen_of_iff guard (if remapped then z else w) s
  exact ⟨fun legal h => by rw [answers legal, if_pos h], fun legal h => by rw [answers legal, if_neg h], raises⟩

section
variable (li lo : Width) (mi mo : Param) (s : State)

/-- 45_transcoders.md R191. -/
theorem exec_pul2pul : Remaps (PulSide li mi.toNat ∧ PulSide lo mo.toNat) (s.operand li = 1)
    1 (transcode lo mi mo (s.operand li)) s (exec (.pul2pul li lo mi mo) s) :=
  remaps_answerWhen (pulSideLegal_iff ..) (pulSideLegal_iff ..) _ _ s

/-- 45_transcoders.md R192. -/
theorem exec_slog2slog :
    Remaps (SlogSide li mi.toNat ∧ SlogSide lo mo.toNat) (s.operand li = 2 ^ (li.bits - 1))
      (2 ^ (lo.bits - 1)) (transcode lo mi mo (s.operandS li)) s (exec (.slog2slog li lo mi mo) s) :=
  remaps_answerWhen (slogSideLegal_iff ..) (slogSideLegal_iff ..) _ _ s

/-- 45_transcoders.md R193. -/
theorem exec_pul2slog : Remaps (PulSide li mi.toNat ∧ SlogSide lo mo.toNat) (s.operand li = 1)
    (2 ^ (lo.bits - 1)) (transcode lo mi mo (s.operand li)) s (exec (.pul2slog li lo mi mo) s) :=
  remaps_answerWhen (pulSideLegal_iff ..) (slogSideLegal_iff ..) _ _ s

/-- 45_transcoders.md R194. -/
theorem exec_slog2pul : Remaps (SlogSide li mi.toNat ∧ PulSide lo mo.toNat) (s.operandS li < 0)
    1 (transcode lo mi mo (s.operandS li)) s (exec (.slog2pul li lo mi mo) s) :=
  remaps_answerWhen (slogSideLegal_iff ..) (pulSideLegal_iff ..) _ _ s

end

/-- The SLOG sentinel is a negative codeword (45_transcoders.md R194). -/
theorem operandS_neg_of_sentinel {s : State} {w : Width} (sentinel : s.operand w = 2 ^ (w.bits - 1)) :
    s.operandS w < 0 := by
  rw [operandS_eq, ← signedAt_operand, sentinel, signedAt_two_pow_pred (bits_pos w)]
  exact neg_lt_zero.2 (by positivity)

/-! ### The obligations on one transcode -/

/-- Settles O46: PUL-zero is the remapped pattern, and the model's two shifts are the one floor realignment. -/
theorem pul2pulRealigns : Obligations.Pul2pulRealigns := by
  intro li lo mi mo s
  obtain ⟨sentinel, ordinary, illegal⟩ := exec_pul2pul li lo mi mo s
  rw [transcode_eq] at ordinary
  exact ⟨decode_requestWord (by decide) rfl, sentinel, ordinary, illegal⟩

/-- Settles O47: SLOG-zero is the remapped pattern, and the floor realignment is of the signed reading. -/
theorem slog2slogRealigns : Obligations.Slog2slogRealigns := by
  intro li lo mi mo s
  obtain ⟨sentinel, ordinary, illegal⟩ := exec_slog2slog li lo mi mo s
  rw [transcode_eq, operandS_eq] at ordinary
  exact ⟨decode_requestWord (by decide) rfl, sentinel, ordinary, illegal⟩

/-- Settles O48: as O46, PUL-zero being remapped to SLOG-zero. -/
theorem pul2slogRealigns : Obligations.Pul2slogRealigns := by
  intro li lo mi mo s
  obtain ⟨sentinel, ordinary, illegal⟩ := exec_pul2slog li lo mi mo s
  rw [transcode_eq] at ordinary
  exact ⟨decode_requestWord (by decide) rfl, sentinel, ordinary, illegal⟩

/-- Settles O49: the remapped codewords are the negative ones. -/
theorem slog2pulRealigns : Obligations.Slog2pulRealigns := by
  intro li lo mi mo s
  obtain ⟨negative, ordinary, illegal⟩ := exec_slog2pul li lo mi mo s
  rw [operandS_eq] at negative ordinary
  rw [transcode_eq, not_lt] at ordinary
  exact ⟨decode_requestWord (by decide) rfl, negative, ordinary, illegal⟩

/-- Settles O50: a result that fits is read as the realigned value, which is exact to a budget that grows. -/
theorem transcodeIsExactWhereItFits : Obligations.TranscodeIsExactWhereItFits := by
  refine ⟨?pul2pul, ?slog2slog, ?pul2slog, ?slog2pul⟩
  case pul2pul =>
    rintro li lo mi mo s _ hi ho ordinary rfl low high
    exact ⟨_, (exec_pul2pul li lo mi mo s).ordinary ⟨hi, ho⟩ ordinary, natCast_transcode_of_fits low high⟩
  case slog2slog =>
    rintro li lo mi mo s _ hi ho ordinary rfl low high
    rw [← operandS_eq] at low high ⊢
    exact ⟨_, (exec_slog2slog li lo mi mo s).ordinary ⟨hi, ho⟩ ordinary, signedAt_transcode_of_fits low high⟩
  case pul2slog =>
    rintro li lo mi mo s _ hi ho ordinary rfl low high
    exact ⟨_, (exec_pul2slog li lo mi mo s).ordinary ⟨hi, ho⟩ ordinary, signedAt_transcode_of_fits low high⟩
  case slog2pul =>
    rintro li lo mi mo s _ hi ho nonneg rfl low high
    rw [← operandS_eq] at nonneg low high ⊢
    exact ⟨_, (exec_slog2pul li lo mi mo s).ordinary ⟨hi, ho⟩ nonneg.not_gt, natCast_transcode_of_fits low high⟩

/-- Settles O51: each input sentinel is a remapped pattern, SLOG2PUL's because it is negative. -/
theorem transcodersPreserveTheZeroSentinels : Obligations.TranscodersPreserveTheZeroSentinels := by
  intro li lo mi mo s
  exact ⟨fun hi ho => (exec_pul2pul li lo mi mo s).sentinel ⟨hi, ho⟩,
    fun hi ho => (exec_slog2slog li lo mi mo s).sentinel ⟨hi, ho⟩,
    fun hi ho => (exec_pul2slog li lo mi mo s).sentinel ⟨hi, ho⟩,
    fun hi ho sentinel => (exec_slog2pul li lo mi mo s).sentinel ⟨hi, ho⟩ (operandS_neg_of_sentinel sentinel)⟩

/-! ### Transcoding an encoding -/

/-- A budget legal for the PUL codec is legal for a PUL side (45_transcoders.md R190). -/
theorem PulParams.toPulSide {h l : Width} {m : Nat} (legal : PulParams h l m) : PulSide l m := by
  obtain ⟨hM, hL, _⟩ := legal
  have : 1 ≤ h.log2Bits := by cases h <;> decide
  exact ⟨hM, by omega⟩

/-- A budget legal for the SLOG codec is legal for a SLOG side (45_transcoders.md R190). -/
theorem SlogParams.toSlogSide {c : Config} {h l : Width} {m f : Nat} (legal : SlogParams c h l m f) :
    SlogSide l m := by
  obtain ⟨hM, hL, _, _⟩ := legal
  have : 1 ≤ h.log2Bits := by cases h <;> decide
  exact ⟨hM, by omega⟩

section
variable {h l : Width} {m f : Param} {s : State}

theorem exec_pulenc_of_zero (legal : PulParams h l m.toNat) (zero : s.operand h = 0) :
    exec (.pulenc h l m) s = .next (legalNext s 1) := by
  rw [exec_pulenc legal, zero, pulEncode_le_one (Nat.zero_le 1)]

theorem exec_slogenc_of_zero (legal : SlogParams s.cfg h l m.toNat f.toNat) (zero : s.operand h = 0) :
    exec (.slogenc h l m f) s = .next (legalNext s (2 ^ (l.bits - 1))) := by
  rw [exec_slogenc legal, zero, slogEncode_zero]

/-- SLOGENC of a non-zero integer: for F = 0 its number is the PUL number (44_slog_codec.md R162). -/
theorem exec_slogenc_integer (legal : SlogParams s.cfg h l m.toNat 0) (h0 : s.operand h ≠ 0) :
    exec (.slogenc h l m 0) s = .next (legalNext s (trunc l.bits (pulNumber m.toNat (s.operand h)))) := by
  rw [← slogNumber_zero]
  exact exec_slogenc_of_ne (f := 0) legal h0

end

/-- PUL-zero is read back from the operand bus. -/
theorem operand_pulZero (s : State) (w : Width) : (s.withOperand 1).operand w = 1 :=
  operand_withOperand (Nat.one_lt_two_pow (bits_pos w).ne') s

/-- SLOG-zero is read back from the operand bus. -/
theorem operand_slogZero (s : State) (w : Width) :
    (s.withOperand (2 ^ (w.bits - 1))).operand w = 2 ^ (w.bits - 1) :=
  operand_withOperand (Nat.two_pow_pred_lt_two_pow (bits_pos w)) s

theorem trunc_pulNumber {h l : Width} {M v : Nat} (legal : PulParams h l M) (h0 : v ≠ 0)
    (hv : v < 2 ^ h.bits) : trunc l.bits (pulNumber M v) = pulNumber M v := by
  rw [trunc_natCast, Nat.mod_eq_of_lt (pulNumber_lt legal h0 hv)]

/-- An integer's number fits a SLOG word, too, and is not negative there (44_slog_codec.md R162). -/
theorem signedAt_trunc_pulNumber {c : Config} {h l : Width} {M v : Nat} (legal : SlogParams c h l M 0)
    (h0 : v ≠ 0) (hv : v < 2 ^ h.bits) : signedAt l.bits (trunc l.bits (pulNumber M v)) = pulNumber M v := by
  rw [← slogNumber_zero]
  exact signedAt_trunc_slogNumber legal (Nat.zero_le _) h0 hv (topFraction_lt M h0)

section
variable {lo : Width} {mi mo : Param}

theorem transcode_pulNumber (narrows : mo.toNat ≤ mi.toNat) (v : Nat) :
    transcode lo mi mo (pulNumber mi.toNat v) = trunc lo.bits (pulNumber mo.toNat v) := by
  rw [transcode_eq_trunc, realigned_pulNumber narrows]

theorem transcode_slogNumber (narrows : mo.toNat ≤ mi.toNat) (F v : Nat) :
    transcode lo mi mo (slogNumber mi.toNat F v (topFraction mi.toNat v)) =
      trunc lo.bits (slogNumber mo.toNat F v (topFraction mo.toNat v)) := by
  rw [transcode_eq_trunc, realigned_slogNumber narrows]

end

/-- Settles O52: 0 is PUL-zero on both sides, and every other number is realigned to the narrower one. -/
theorem pul2pulOfAnEncodingIsTheNarrowerEncoding : Obligations.Pul2pulOfAnEncodingIsTheNarrowerEncoding := by
  intro h li lo mi mo s hi ho narrows
  have transcodes (x : Nat) := exec_pul2pul li lo mi mo (s.withOperand x)
  have sides : PulSide li mi.toNat ∧ PulSide lo mo.toNat := ⟨PulParams.toPulSide hi, PulParams.toPulSide ho⟩
  by_cases h0 : s.operand h = 0
  · exact ⟨1, 1, exec_pulenc_of_zero hi h0, (transcodes 1).sentinel sides (operand_pulZero s li),
      exec_pulenc_of_zero ho h0⟩
  · have hv := operand_lt s h
    have readBack := operand_withOperand (pulNumber_lt hi h0 hv) s
    refine ⟨_, _, exec_pulenc_of_ne hi h0, ?_, exec_pulenc_of_ne ho h0⟩
    rw [(transcodes _).ordinary sides (readBack.trans_ne (pulNumber_ne_one hi.1 h0)), readBack,
      transcode_pulNumber narrows, trunc_pulNumber ho h0 hv]

/-- Settles O53: the floor moves a negative number, too, to the narrower one, since the exponent carries the
sign. -/
theorem slog2slogOfAnEncodingIsTheNarrowerEncoding :
    Obligations.Slog2slogOfAnEncodingIsTheNarrowerEncoding := by
  intro h li lo mi mo f s hi ho hF narrows
  have transcodes (x : Nat) := exec_slog2slog li lo mi mo (s.withOperand x)
  have sides : SlogSide li mi.toNat ∧ SlogSide lo mo.toNat :=
    ⟨SlogParams.toSlogSide hi, SlogParams.toSlogSide ho⟩
  by_cases h0 : s.operand h = 0
  · exact ⟨_, _, exec_slogenc_of_zero hi h0, (transcodes _).sentinel sides (operand_slogZero s li),
      exec_slogenc_of_zero ho h0⟩
  · have hv := operand_lt s h
    have hg := topFraction_lt mi.toNat h0
    have ordinary := trunc_slogNumber_ne_sentinel hi hF h0 hv hg
    refine ⟨_, _, exec_slogenc_of_ne hi h0, ?_, exec_slogenc_of_ne ho h0⟩
    rw [(transcodes _).ordinary sides ((operand_withOperand (trunc_lt ..) s).trans_ne ordinary),
      operandS_withOperand (trunc_lt ..), signedAt_trunc_slogNumber hi hF h0 hv hg,
      transcode_slogNumber narrows]

/-- PUL2SLOG of an encoding: for F = 0 the two formats have one number. -/
theorem pul2slog_pulenc {h li lo : Width} {mi mo : Param} {s : State} (narrows : mo.toNat ≤ mi.toNat)
    (hi : PulParams h li mi.toNat) (ho : SlogParams s.cfg h lo mo.toNat 0) :
    ∃ x y, exec (.pulenc h li mi) s = .next (legalNext s x) ∧
      exec (.pul2slog li lo mi mo) (s.withOperand x) = .next (legalNext (s.withOperand x) y) ∧
      exec (.slogenc h lo mo 0) s = .next (legalNext s y) := by
  have transcodes (x : Nat) := exec_pul2slog li lo mi mo (s.withOperand x)
  have sides : PulSide li mi.toNat ∧ SlogSide lo mo.toNat :=
    ⟨PulParams.toPulSide hi, SlogParams.toSlogSide ho⟩
  by_cases h0 : s.operand h = 0
  · exact ⟨_, _, exec_pulenc_of_zero hi h0, (transcodes 1).sentinel sides (operand_pulZero s li),
      exec_slogenc_of_zero (f := 0) ho h0⟩
  · have readBack := operand_withOperand (pulNumber_lt hi h0 (operand_lt s h)) s
    refine ⟨_, _, exec_pulenc_of_ne hi h0, ?_, exec_slogenc_integer ho h0⟩
    rw [(transcodes _).ordinary sides (readBack.trans_ne (pulNumber_ne_one hi.1 h0)), readBack,
      transcode_pulNumber narrows]

/-- SLOG2PUL of an encoding: for F = 0 the number of a non-zero value is not negative, and SLOG-zero is. -/
theorem slog2pul_slogenc {h li lo : Width} {mi mo : Param} {s : State} (narrows : mo.toNat ≤ mi.toNat)
    (hi : SlogParams s.cfg h li mi.toNat 0) (ho : PulParams h lo mo.toNat) :
    ∃ x y, exec (.slogenc h li mi 0) s = .next (legalNext s x) ∧
      exec (.slog2pul li lo mi mo) (s.withOperand x) = .next (legalNext (s.withOperand x) y) ∧
      exec (.pulenc h lo mo) s = .next (legalNext s y) := by
  have transcodes (x : Nat) := exec_slog2pul li lo mi mo (s.withOperand x)
  have sides : SlogSide li mi.toNat ∧ PulSide lo mo.toNat :=
    ⟨SlogParams.toSlogSide hi, PulParams.toPulSide ho⟩
  by_cases h0 : s.operand h = 0
  · exact ⟨_, _, exec_slogenc_of_zero (f := 0) hi h0,
      (transcodes _).sentinel sides (operandS_neg_of_sentinel (operand_slogZero s li)),
      exec_pulenc_of_zero ho h0⟩
  · have hv := operand_lt s h
    have readBack := (operandS_withOperand (trunc_lt ..) s).trans (signedAt_trunc_pulNumber hi h0 hv)
    refine ⟨_, _, exec_slogenc_integer hi h0, ?_, exec_pulenc_of_ne ho h0⟩
    rw [(transcodes _).ordinary sides (readBack.trans_ge (Int.natCast_nonneg _)).not_gt, readBack,
      transcode_pulNumber narrows, trunc_pulNumber ho h0 hv]

/-- Settles O54: one direction each. -/
theorem pulAndSlogEncodingsTranscodeToEachOther : Obligations.PulAndSlogEncodingsTranscodeToEachOther :=
  fun _ _ _ _ _ _ narrows => ⟨pul2slog_pulenc narrows, slog2pul_slogenc narrows⟩

end Sys2Proof.Machine
end

section
/-! SUPPORT. The cause of a request (60_exceptions.md R212, R218). An operation's cause is read off its
parameters and its operand (`instrCause`); the operation answers with that cause, and the legality table gives
the same cause on the raw fields of the operation's encoding. A word that encodes nothing has the decoder's
cause on both sides. -/

namespace Sys2Proof.Machine

/-! ### What an operation answers -/

/-- A request of cause `n` at `s`, 0 for a legal one, is answered by `x`. -/
def AnswersCause (n : Nat) (s : State) (x : Result) : Prop :=
  (n = 0 → ∃ v, x = .next (legalNext s v)) ∧ (n ≠ 0 → ∃ t, x = .next t ∧ IllegalNext s t n)

/-- The operand of `s` is 0, and `i` is one of the two operations that need it non-zero. -/
def lacksOperand (s : State) : Instr → Bool
  | .clz w | .log2f w => s.operand w == 0
  | _ => false

/-- The cause of an operation at `s`: its parameters are judged before its operand (60_exceptions.md R212). -/
def instrCause (s : State) (i : Instr) : Nat :=
  if paramsLegal s.cfg i then if lacksOperand s i then 4 else 0 else 3

section
variable {s : State}

theorem AnswersCause.legal (v : Nat) : AnswersCause 0 s (.next (legalNext s v)) :=
  ⟨fun _ => ⟨v, rfl⟩, fun h => absurd rfl h⟩

theorem AnswersCause.illegal {n : Nat} {x : Result} (hn : n ≠ 0)
    (h : ∃ t, x = .next t ∧ IllegalNext s t n) : AnswersCause n s x :=
  ⟨fun h0 => absurd h0 hn, fun _ => h⟩

theorem AnswersCause.answerWhen (b : Bool) (v : Nat) :
    AnswersCause (if b then 0 else 3) s (Machine.answerWhen b v s) := by
  cases b with
  | true => exact .legal v
  | false => exact .illegal three_ne_zero (answerWhen_illegal rfl v s)

theorem AnswersCause.answerNonzero (x v : Nat) :
    AnswersCause (if x == 0 then 4 else 0) s (Machine.answerNonzero x v s) := by
  cases x with
  | zero => exact .illegal four_ne_zero (answerNonzero_zero v s)
  | succ n => exact .legal v

end

/-- Every operation answers with its own cause. -/
theorem exec_answersCause (i : Instr) (s : State) : AnswersCause (instrCause s i) s (exec i s) := by
  cases i with
  | clz w | log2f w => exact .answerNonzero (s.operand w) _
  | fls w | umin w | umax w | smin w | smax w | pulmaxm h l | slogmaxm h l => exact .legal _
  | bmask w hi => exact .answerWhen (bmaskLegal ..) _
  | tofpu h l f | tofps h l f | fromfpu h l f | fromfps h l f => exact .answerWhen (fixedLegal ..) _
  | pulenc h l m | puldec h l m => exact .answerWhen (pulLegal ..) _
  | slogenc h l m f | slogdec h l m f | slogencc h l m f | slogdecc h l m f =>
    exact .answerWhen (slogLegal ..) _
  | pul2pul li lo mi mo => exact .answerWhen (pulSideLegal .. && pulSideLegal ..) _
  | slog2slog li lo mi mo => exact .answerWhen (slogSideLegal .. && slogSideLegal ..) _
  | pul2slog li lo mi mo => exact .answerWhen (pulSideLegal .. && slogSideLegal ..) _
  | slog2pul li lo mi mo => exact .answerWhen (slogSideLegal .. && pulSideLegal ..) _

/-! ### What the legality table says of a word -/

theorem cmdField_wh (c : CmdWord) : cmdField c 5 2 = (fieldWh c).toNat := (extract_toNat c 5 2).symm

theorem cmdField_wl (c : CmdWord) : cmdField c 7 2 = (fieldWl c).toNat := (extract_toNat c 7 2).symm

theorem cmdField_p (c : CmdWord) : cmdField c 9 6 = (fieldP c).toNat := (extract_toNat c 9 6).symm

theorem cmdField_q (c : CmdWord) : cmdField c 15 6 = (fieldQ c).toNat := (extract_toNat c 15 6).symm

/-- The width a code stands for (30_encoding.md R71). -/
theorem eight_mul_two_pow_code (x : BitVec 2) : 8 * 2 ^ x.toNat = (widthOfCode x).bits := by
  revert x; decide

theorem log2_bits (w : Width) : Nat.log2 w.bits = w.log2Bits := by
  rw [← two_pow_log2Bits, Nat.log2_two_pow]

/-- The table's mask test fails in every row exactly when the word matches none (30_encoding.md R80). -/
theorem opcodeRows_all_iff {c : CmdWord} :
    opcodeRows.all (fun x => c &&& x.1 != x.2) = true ↔ ¬ MatchesARow c := by
  simp only [List.all_eq_true, bne_iff_ne, MatchesARow, not_exists, not_and]

section
variable {bound : Nat → Nat} {c : CmdWord} {a : Bus}

theorem requestCause_of_reserved (hop : 24 ≤ (fieldOp c).toNat) : requestCause bound c a = 1 := by
  rw [← cmdField_op] at hop
  exact if_pos hop

theorem requestCause_of_not_matchesARow (hop : (fieldOp c).toNat < 24) (hrow : ¬ MatchesARow c) :
    requestCause bound c a = 2 := by
  rw [← cmdField_op] at hop
  exact (if_neg hop.not_ge).trans (if_pos (opcodeRows_all_iff.2 hrow))

/-- Of the bound on F only its value at the word's own width counts. -/
theorem requestCause_congr {bound' : Nat → Nat} (same : ∀ w : Width, bound w.bits = bound' w.bits) :
    requestCause bound c a = requestCause bound' c a := by
  simp only [requestCause, cmdField_wh, eight_mul_two_pow_code, same]

end

/-- The table on an operation's encoding: its third column, and the operand of CLZ and LOG2F. -/
theorem requestCause_encode_of_fields {s : State} {i : Instr} {op : BitVec 5} {h l : Width} {p q : Param}
    (fields : encode i = pack op (codeOfWidth h) (codeOfWidth l) p q)
    (params : paramCondition (fMax s.cfg h) op.toNat h.bits l.bits p.toNat q.toNat = paramsLegal s.cfg i)
    (operand : (op.toNat = 0 ∨ op.toNat = 2) ∧ s.operand h = 0 ↔ lacksOperand s i = true) :
    requestCause (fMaxAt s.cfg) (encode i) s.a = instrCause s i := by
  have hrow := matchesARow_encode i
  have defined := fieldOp_lt_of_matchesARow hrow
  have accepted := mt opcodeRows_all_iff.1 (not_not.2 hrow)
  rw [requestCause, if_neg (by rw [cmdField_op]; exact defined.not_ge), if_neg accepted, fields]
  simp only [cmdField_op, cmdField_wh, cmdField_wl, cmdField_p, cmdField_q, fieldOp_pack, fieldWh_pack,
    fieldWl_pack, fieldP_pack, fieldQ_pack, eight_mul_two_pow_code, widthOfCode_codeOfWidth, fMaxAt_bits,
    params, instrCause, ← operand, State.operand]
  cases paramsLegal s.cfg i <;> rfl

/-- The table gives an encoded operation the operation's own cause: row by row, the third column on the fields is
the model's check, and only CLZ and LOG2F look at the operand. -/
theorem requestCause_encode (s : State) (i : Instr) :
    requestCause (fMaxAt s.cfg) (encode i) s.a = instrCause s i := by
  cases i with
  | clz w | log2f w =>
    exact requestCause_encode_of_fields (l := .w8) rfl rfl (by simp [lacksOperand])
  | fls w | bmask w hi | umin w | umax w | smin w | smax w =>
    exact requestCause_encode_of_fields (l := .w8) rfl rfl (by simp [lacksOperand])
  | pulmaxm h l | slogmaxm h l => exact requestCause_encode_of_fields rfl rfl (by simp [lacksOperand])
  | tofpu h l f | tofps h l f | fromfpu h l f | fromfps h l f =>
    refine requestCause_encode_of_fields rfl (Bool.eq_iff_iff.2 ?_) (by simp [lacksOperand])
    exact decide_eq_true_iff.trans (fixedLegal_iff ..).symm
  | pulenc h l m | puldec h l m =>
    refine requestCause_encode_of_fields rfl ?_ (by simp [lacksOperand])
    simp [paramCondition, paramsLegal, pulLegal, log2_bits]
  | slogenc h l m f | slogdec h l m f | slogencc h l m f | slogdecc h l m f =>
    refine requestCause_encode_of_fields rfl ?_ (by simp [lacksOperand])
    simp [paramCondition, paramsLegal, slogLegal, log2_bits, Bool.and_assoc]
  | pul2pul li lo mi mo | slog2slog li lo mi mo | pul2slog li lo mi mo | slog2pul li lo mi mo =>
    refine requestCause_encode_of_fields rfl ?_ (by simp [lacksOperand])
    simp [paramCondition, paramsLegal, pulSideLegal, slogSideLegal, Bool.and_assoc]

/-! ### The obligations on every step -/

/-- A step answers with the cause of the legality table, in each of the three cases of the decoder. -/
theorem step_answersCause (s : State) :
    AnswersCause (requestCause (fMaxAt s.cfg) s.cmd s.a) s (step s) := by
  rcases decode_cases s.cmd with ⟨reserved, _, _⟩ | ⟨_, _, i, decodes, encodes⟩ | ⟨defined, hrow, _⟩
  · rw [requestCause_of_reserved reserved]
    exact .illegal one_ne_zero (step_of_reserved reserved)
  · rw [← encodes, requestCause_encode, step_of_decode_ok decodes]
    exact exec_answersCause i s
  · rw [requestCause_of_not_matchesARow defined hrow]
    exact .illegal two_ne_zero (step_of_not_matchesARow defined hrow)

/-- Settles O8: the cause of every step, and with the default `F_MAX` the bound H − 1 at every width. -/
theorem everyRequestGetsTheCauseOfTheLegalityTable :
    Obligations.EveryRequestGetsTheCauseOfTheLegalityTable := by
  intro s
  obtain ⟨legal, illegal⟩ := step_answersCause s
  refine ⟨legal, illegal, fun hdefault => requestCause_congr fun w => ?_⟩
  rw [fMaxAt_bits, fMax_default hdefault]

theorem causeCode_ne_zero (c : Cause) : causeCode c ≠ 0 := by cases c <;> decide

theorem causeCode_toNat_le (c : Cause) : (causeCode c).toNat ≤ 4 := by cases c <;> decide

/-- Both kinds of response are sound (60_exceptions.md R212). -/
theorem sound_of_step {s t : State} {y : Response} (hstep : step s = .next t) (hrsp : t.rsp = some y) :
    y.Sound := by
  rcases step_cases s with ⟨v, h⟩ | ⟨c, h⟩
  · cases hstep.symm.trans h
    cases (legalNext_rsp s v).symm.trans hrsp
    exact ⟨iff_of_true rfl rfl, Nat.zero_le _⟩
  · cases hstep.symm.trans h
    cases (State.raised_rsp s c).symm.trans hrsp
    exact ⟨iff_of_false nofun (causeCode_ne_zero c), causeCode_toNat_le c⟩

/-- Settles O9: the response is the step's own, and the tables are those before the step. -/
theorem everyStepKeepsTheInvariant : Obligations.EveryStepKeepsTheInvariant := by
  rintro s t ⟨_, tables⟩ hstep
  exact ⟨fun _ => sound_of_step hstep, (step_cfg hstep).symm ▸ tables⟩

end Sys2Proof.Machine
end

section
/-! SUPPORT. The in-band conditions (60_exceptions.md R213 to R217). A decoder's value is 0 exactly below exponent
0 and saturated from exponent H on, whatever the fraction, so a correction plays no part in either. -/

namespace Sys2Proof.Machine

/-- From exponent H on the value is saturated (60_exceptions.md R214). -/
theorem decodedValue_saturated {H M f : Nat} {E : Int} (hE : H ≤ E) : decodedValue H M f E = 2 ^ H - 1 := by
  rw [decodedValue, if_neg (by omega), if_pos hE]

/-- From exponent 0 on the leading one is not shifted out. -/
theorem scaledUp_pos (M f e : Nat) : 0 < scaledUp M f e := by
  refine Nat.div_pos ?_ (two_pow_pos M)
  exact (Nat.le_add_right ..).trans (Nat.le_mul_of_pos_right _ (two_pow_pos e))

/-- A decoded value is 0 exactly below exponent 0 (60_exceptions.md R215). -/
theorem decodedValue_eq_zero_iff {H M f : Nat} {E : Int} (hH : 0 < H) : decodedValue H M f E = 0 ↔ E < 0 := by
  rcases Int.lt_or_le E 0 with negative | nonneg
  · simp [decodedValue, negative]
  · refine iff_of_false (Nat.pos_iff_ne_zero.1 ?_) nonneg.not_gt
    rw [decodedValue, if_neg nonneg.not_gt]
    split
    · exact Nat.sub_pos_of_lt (Nat.one_lt_two_pow hH.ne')
    · exact scaledUp_pos ..

section
variable {h l : Width} {m f : Param} {s : State}

theorem exec_slogencc_of_zero (legal : SlogParams s.cfg h l m.toNat f.toNat) (zero : s.operand h = 0) :
    exec (.slogencc h l m f) s = .next (legalNext s (2 ^ (l.bits - 1))) := by
  rw [exec_slogencc legal, zero, slogEncodeCorrected_zero]

/-- A PUL word of at least H · 2^M has an exponent of at least H (43_pul_codec.md R143). -/
theorem exec_puldec_of_ge (legal : PulParams h l m.toNat) (ordinary : s.operand l ≠ 1)
    (saturated : h.bits * 2 ^ m.toNat ≤ s.operand l) :
    exec (.puldec h l m) s = .next (legalNext s (2 ^ h.bits - 1)) := by
  have exponent : h.bits ≤ s.operand l / 2 ^ m.toNat := (Nat.le_div_iff_mul_le (two_pow_pos _)).2 saturated
  rw [exec_puldec_of_parts legal (Nat.mod_lt _ (two_pow_pos _)) (Nat.div_add_mod' ..).symm ordinary,
    decodedValue_of_ge exponent]

end

/-- Settles O55: the three encoders at 0, the decoders by their parts, and SLOG2PUL's remapped words. -/
theorem inBandConditionsAreResults : Obligations.InBandConditionsAreResults := by
  refine ⟨?zero, ?pulOverflow, ?slogOverflow, ?negative⟩
  case zero =>
    intro h l m f s zero
    exact ⟨fun legal => exec_pulenc_of_zero legal zero,
      fun legal => ⟨exec_slogenc_of_zero legal zero, exec_slogencc_of_zero legal zero⟩⟩
  case pulOverflow => exact fun _ _ _ _ => exec_puldec_of_ge
  case slogOverflow =>
    intro h l m f s E x legal ordinary parts saturated
    rw [exec_slogdec_of_parts legal ordinary parts, exec_slogdecc_of_parts legal ordinary parts,
      decodedValue_saturated saturated, decodedValue_saturated saturated]
    exact ⟨rfl, rfl⟩
  case negative =>
    intro li lo mi mo s hi ho negative
    rw [← operandS_eq] at negative
    exact (exec_slog2pul li lo mi mo s).sentinel ⟨hi, ho⟩ negative

/-- Settles O56: both values are decoded at exponent E + F, only the fractions differ. -/
theorem underflowExactlyAtNegativeScaledExponent : Obligations.UnderflowExactlyAtNegativeScaledExponent := by
  intro h l m f s E x legal ordinary parts
  have hH := bits_pos h
  have hx : x < 2 ^ m.toNat := parts.1
  exact ⟨_, _, exec_slogdec_of_parts legal ordinary parts, exec_slogdecc_of_parts legal ordinary parts,
    decodedValue_lt hH hx _, decodedValue_lt hH ((Nat.sub_le ..).trans_lt hx) _,
    decodedValue_eq_zero_iff hH, decodedValue_eq_zero_iff hH⟩

end Sys2Proof.Machine
end

section
/-! SUPPORT. SLOGENCC within one bucket of the table (93_implementation_defined.md U12, 90_conflicts.md C4). The
correction reads the fraction through its bucket only, so there it shifts every fraction by one constant, and both
the shift and the clamp of R166 keep their order. -/

namespace Sys2Proof.Machine

/-- Fractions of one bucket get one correction (44_slog_codec.md R165). -/
theorem ecorr_congr (c : Config) {M f g : Nat} (bucket : idx8 f M = idx8 g M) : ecorr c f M = ecorr c g M := by
  rw [ecorr, ecorr, bucket]

/-- Adding one constant and clamping keep the order (44_slog_codec.md R166). -/
theorem correctedFraction_le_correctedFraction (c : Config) {M f g : Nat} (bucket : idx8 f M = idx8 g M)
    (hfg : f ≤ g) : correctedFraction c M f ≤ correctedFraction c M g := by
  rw [correctedFraction, correctedFraction, ecorr_congr c bucket]
  exact min_le_min_right _ (Nat.add_le_add_right hfg _)

/-- Under one exponent the fractions decide the order of the numbers (44_slog_codec.md R162). -/
theorem slogNumber_le_slogNumber (M F : Nat) {u v f g : Nat} (same : u.log2 = v.log2) (hfg : f ≤ g) :
    slogNumber M F u f ≤ slogNumber M F v g := by
  rw [slogNumber, slogNumber, same]
  exact Int.add_le_add_left (Int.ofNat_le.2 hfg) _

/-- Settles O43: both words are read back as their numbers, of one exponent and ordered corrected fractions. -/
theorem slogenccIsMonotoneWithinABucket : Obligations.SlogenccIsMonotoneWithinABucket := by
  intro h l m f s s' legal hF (hu0 : s.operand h ≠ 0) (huv : s.operand h ≤ s'.operand h)
    (same : (s.operand h).log2 = (s'.operand h).log2) bucket sameCfg
  have hv0 : s'.operand h ≠ 0 := by omega
  have legal' : SlogParams s'.cfg h l m.toNat f.toNat := sameCfg ▸ legal
  refine ⟨_, _, exec_slogencc_of_ne legal hu0, exec_slogencc_of_ne legal' hv0, ?_⟩
  rw [signedAt_trunc_slogNumber legal hF hu0 (operand_lt s h) (correctedFraction_lt ..),
    signedAt_trunc_slogNumber legal' hF hv0 (operand_lt s' h) (correctedFraction_lt ..), ← sameCfg]
  have fractions := topFraction_le_topFraction m.toNat same huv
  exact slogNumber_le_slogNumber _ _ same (correctedFraction_le_correctedFraction s.cfg bucket fractions)

end Sys2Proof.Machine
end
